-- ==== Sys2Proof/Word.lean ====
section
/-! DEFINITION. The two widths of FBCORE: a command-port word (30_encoding.md R60) and a byte of the Framebuffer, the
font ROM or a string (20_memory.md R43). -/

namespace Sys2Proof

/-- One 64-bit word of the command port: a header word or a DRAWTXT payload word (30_encoding.md R60). -/
abbrev Word := BitVec 64

/-- One byte; bit k has weight 2^k (00_scope.md R8). -/
abbrev Byte := BitVec 8

end Sys2Proof
end

