-- ==== Sys2Proof/Syntax.lean ====
section
/-! DEFINITION. The commands of FBCORE-CMD version 1, one constructor per row of spec/opcode_table.json
(30_encoding.md R67), operands in the order of the assembler syntax (30_encoding.md R73). -/

namespace Sys2Proof

/-- The four values of the Orientation (10_state.md R24). -/
inductive Orientation where
  | normal
  | rot90
  | rot180
  | rot270
  deriving DecidableEq, Repr

/-- One command with its operands assembled (30_encoding.md R62 to R65, R70). Coordinates are integers, which
`Instr.wellFormed` keeps in the range of 16-bit two's complement; a string is a list of bytes, at most 255. -/
inductive Instr where
  | clear
  | setorient (o : Orientation)
  | pset (x y : Int) (on : Bool)
  | drawpx (x y : Int) (on : Bool)
  | testpat
  | drawch (x y : Int) (code : Byte) (on : Bool) (scale : Byte)
  | drawtxt (x y : Int) (text : List Byte) (on : Bool) (scale : Byte)
  | snap
  deriving DecidableEq, Repr

end Sys2Proof
end

