-- ==== Sys2Proof/WellFormed.lean ====
section
/-! DEFINITION. Which instruction terms the encoding can express (30_encoding.md R62, R63). -/

namespace Sys2Proof

/-- A coordinate the 16-bit two's-complement field holds (30_encoding.md R62). -/
def coordOk (v : Int) : Bool := decide (-32768 ≤ v) && decide (v ≤ 32767)

/-- A string whose length the 8-bit `len` field holds (30_encoding.md R63). -/
def textOk (text : List Byte) : Bool := decide (text.length ≤ 255)

/-- The instruction has an encoding. Every other operand fits its field by its type. -/
def Instr.wellFormed : Instr → Bool
  | .clear => true
  | .setorient _ => true
  | .pset x y _ => coordOk x && coordOk y
  | .drawpx x y _ => coordOk x && coordOk y
  | .testpat => true
  | .drawch x y _ _ _ => coordOk x && coordOk y
  | .drawtxt x y text _ _ => coordOk x && coordOk y && textOk text
  | .snap => true

end Sys2Proof
end

