-- ==== Sys2Proof/Decode.lean ====
section
/-! DEFINITION. The command encoding (30_encoding.md): the decoder, total on every list of words, and the encoder. -/

namespace Sys2Proof

/-! ### Fields of a header word (30_encoding.md R61) -/

/-- `op`, bits 63:56. -/
def opField (w : Word) : Byte := w.extractLsb' 56 8

/-- `on`, bit 48 (30_encoding.md R65). -/
def onField (w : Word) : Bool := w.getLsbD 48

/-- `scale`, bits 47:40 (30_encoding.md R64). -/
def scaleField (w : Word) : Byte := w.extractLsb' 40 8

/-- `arg`, bits 39:32 (30_encoding.md R63). -/
def argField (w : Word) : Byte := w.extractLsb' 32 8

/-- `x = sext_16(word[31:16])` (30_encoding.md R62). -/
def xField (w : Word) : Int := (w.extractLsb' 16 16).toInt

/-- `y = sext_16(word[15:0])` (30_encoding.md R62). -/
def yField (w : Word) : Int := (w.extractLsb' 0 16).toInt

/-- The Orientation of a 2-bit value (10_state.md R24). -/
def Orientation.ofBits (b : BitVec 2) : Orientation :=
  match b.toNat with
  | 0 => .normal
  | 1 => .rot90
  | 2 => .rot180
  | _ => .rot270

/-- The 2-bit value of an Orientation (10_state.md R24). -/
def Orientation.toBits : Orientation → BitVec 2
  | .normal => 0
  | .rot90 => 1
  | .rot180 => 2
  | .rot270 => 3

/-! ### The opcode map (30_encoding.md R67, R68) -/

/-- The eight opcodes. -/
inductive Opcode where
  | clear
  | setorient
  | pset
  | drawpx
  | testpat
  | drawch
  | drawtxt
  | snap
  deriving DecidableEq, Repr

/-- The byte that names an opcode (30_encoding.md R67). -/
def Opcode.toByte : Opcode → Byte
  | .clear => 0x01
  | .setorient => 0x02
  | .pset => 0x03
  | .drawpx => 0x04
  | .testpat => 0x05
  | .drawch => 0x06
  | .drawtxt => 0x07
  | .snap => 0x08

/-- The opcode a byte names; 0x00 and 0x09..0xFF name none (30_encoding.md R67). -/
def Opcode.ofByte (b : Byte) : Option Opcode :=
  match b.toNat with
  | 1 => some .clear
  | 2 => some .setorient
  | 3 => some .pset
  | 4 => some .drawpx
  | 5 => some .testpat
  | 6 => some .drawch
  | 7 => some .drawtxt
  | 8 => some .snap
  | _ => none

/-- The `match` column of the opcode table (30_encoding.md R68). -/
def Opcode.matchBits : Opcode → Word
  | .clear => 0x0100000000000000
  | .setorient => 0x0200000000000000
  | .pset => 0x0300000000000000
  | .drawpx => 0x0400000000000000
  | .testpat => 0x0500000000000000
  | .drawch => 0x0600000000000000
  | .drawtxt => 0x0700000000000000
  | .snap => 0x0800000000000000

/-- The `mask` column of the opcode table (30_encoding.md R68). -/
def Opcode.maskBits : Opcode → Word
  | .clear => 0xFFFFFFFFFFFFFFFF
  | .setorient => 0xFFFFFFFCFFFFFFFF
  | .pset => 0xFFFEFFFF00000000
  | .drawpx => 0xFFFEFFFF00000000
  | .testpat => 0xFFFFFFFFFFFFFFFF
  | .drawch => 0xFFFE000000000000
  | .drawtxt => 0xFFFE000000000000
  | .snap => 0xFFFFFFFFFFFFFFFF

/-- A header word selects a command exactly when it matches the command's row (30_encoding.md R68). -/
def Opcode.selects (c : Opcode) (w : Word) : Bool := decide (w &&& c.maskBits = c.matchBits)

/-- Why a header word is illegal (30_encoding.md R69, R71). -/
inductive IllegalCause where
  | reservedOpcode
  | mustBeZero
  deriving DecidableEq, Repr

/-- The cause as `FCODE` records it (10_state.md R25; 60_exceptions.md R170). -/
def IllegalCause.code : IllegalCause → BitVec 2
  | .reservedOpcode => 1
  | .mustBeZero => 2

/-- Decoding one header word, in the order of 30_encoding.md R69: the opcode first, then the must-be-zero bits. -/
def decodeHeader (w : Word) : Except IllegalCause Opcode :=
  match Opcode.ofByte (opField w) with
  | none => .error .reservedOpcode
  | some c => if c.selects w then .ok c else .error .mustBeZero

/-! ### The DRAWTXT payload (30_encoding.md R70) -/

/-- The number of payload words of a string of `len` characters, `ceil(len/8)`. -/
def payloadCount (len : Nat) : Nat := (len + 7) / 8

/-- `s[i] = p[i div 8][8*(i mod 8)+7 : 8*(i mod 8)]`. -/
def payloadChar (p : List Word) (i : Nat) : Byte := (p.getD (i / 8) 0).extractLsb' (8 * (i % 8)) 8

/-- The string of `len` characters that the payload words carry. -/
def unpackText (len : Nat) (p : List Word) : List Byte := (List.range len).map (payloadChar p)

/-- One payload word from eight characters, character 0 the least significant byte. -/
def packWord (s : Nat → Byte) : Word := s 7 ++ s 6 ++ s 5 ++ s 4 ++ s 3 ++ s 2 ++ s 1 ++ s 0

/-- The payload words of a string; unused bytes of the last word are 0 (30_encoding.md R70, R73). -/
def packText (text : List Byte) : List Word :=
  (List.range (payloadCount text.length)).map fun k => packWord fun j => text.getD (8 * k + j) 0

/-! ### The decoder -/

/-- What the words at the front of the command port are. -/
inductive Decoded where
  /-- A legal command that takes `n` words. -/
  | command (i : Instr) (n : Nat)
  /-- An illegal header word (30_encoding.md R71). -/
  | illegal (c : IllegalCause)
  /-- A legal DRAWTXT header whose payload has not all arrived (60_exceptions.md R174). -/
  | incomplete
  /-- No word at all. -/
  | noWord
  deriving DecidableEq, Repr

/-- Operand assembly for a legal header word `w` followed by `rest` (30_encoding.md R69 step 3). -/
def assemble (c : Opcode) (w : Word) (rest : List Word) : Decoded :=
  match c with
  | .clear => .command .clear 1
  | .setorient => .command (.setorient (Orientation.ofBits (w.extractLsb' 32 2))) 1
  | .pset => .command (.pset (xField w) (yField w) (onField w)) 1
  | .drawpx => .command (.drawpx (xField w) (yField w) (onField w)) 1
  | .testpat => .command .testpat 1
  | .drawch => .command (.drawch (xField w) (yField w) (argField w) (onField w) (scaleField w)) 1
  | .drawtxt =>
    if rest.length < payloadCount (argField w).toNat then .incomplete
    else
      .command
        (.drawtxt (xField w) (yField w) (unpackText (argField w).toNat rest) (onField w) (scaleField w))
        (1 + payloadCount (argField w).toNat)
  | .snap => .command .snap 1

/-- The decoder: total on every list of words (30_encoding.md R69). -/
def decode : List Word → Decoded
  | [] => .noWord
  | w :: rest =>
    match decodeHeader w with
    | .error c => .illegal c
    | .ok c => assemble c w rest

/-- The length in words of the command a header word begins, from the header alone (30_encoding.md R60). -/
def commandLength (w : Word) : Nat :=
  if opField w = 0x07 then 1 + payloadCount (argField w).toNat else 1

/-! ### The encoder -/

/-- A header word from its fields, `rsv` zero (30_encoding.md R61). -/
def headerWord (c : Opcode) (on : Bool) (scale arg : Byte) (x y : Int) : Word :=
  c.toByte ++ 0#7 ++ BitVec.ofBool on ++ scale ++ arg ++ BitVec.ofInt 16 x ++ BitVec.ofInt 16 y

/-- The words of an instruction (30_encoding.md R61 to R68, R70). -/
def encode : Instr → List Word
  | .clear => [headerWord .clear false 0 0 0 0]
  | .setorient o => [headerWord .setorient false 0 (0#6 ++ o.toBits) 0 0]
  | .pset x y on => [headerWord .pset on 0 0 x y]
  | .drawpx x y on => [headerWord .drawpx on 0 0 x y]
  | .testpat => [headerWord .testpat false 0 0 0 0]
  | .drawch x y code on scale => [headerWord .drawch on scale code x y]
  | .drawtxt x y text on scale =>
    headerWord .drawtxt on scale (BitVec.ofNat 8 text.length) x y :: packText text
  | .snap => [headerWord .snap false 0 0 0 0]

/-! ### Words given as numbers -/

/-- The first `n` words of a number, the first word its 64 least significant bits. -/
def wordsOfNat : Nat → Nat → List Word
  | 0, _ => []
  | n + 1, v => BitVec.ofNat 64 v :: wordsOfNat n (v / 2 ^ 64)

/-- The command-port words of an instruction whose bits are `w`, bit 0 the least significant bit of the first word and
each later word's bits counting on from it. Bits from `nbits` up are 0. The list has the length the header asks for. -/
def tableWords (nbits w : Nat) : List Word :=
  wordsOfNat (commandLength (BitVec.ofNat 64 (w % 2 ^ nbits))) (w % 2 ^ nbits)

/-- The instruction the decoder reads from an instruction whose bits are `w`, numbered as spec/opcode_table.json
numbers them. -/
def decodeTableWord (nbits w : Nat) : Option Instr :=
  match decode (tableWords nbits w) with
  | .command i _ => some i
  | _ => none

end Sys2Proof
end

