-- ==== Sys2Proof/Config.lean ====
section
/-! DEFINITION. What one implementation of FBCORE fixes (00_scope.md R7), and the free values: constants without a body,
so that no proof can see what they are. -/

namespace Sys2Proof

/-- The font table's shape: 95 glyphs, each of 5 column bytes (10_state.md R26). `font[i][c]` is `FONT[i][c]`. -/
abbrev FontRom := Vector (Vector Byte 5) 95

/-- `FONT`: the contents of the font ROM this machine was built with. The spec gives none (10_state.md R26;
93_implementation_defined.md U3, U4), so nothing is assumed of it (log 4). -/
opaque Config.font : FontRom

/-- Free value: the 1024 bytes of `FB` after the n-th reset sampled during a run (10_state.md R32;
93_implementation_defined.md U1; log 3). -/
opaque Config.fbAfterReset : Nat → Vector Byte 1024

/-- Free value: the two bits of `ORIENT` after the n-th reset sampled during a run (10_state.md R32;
93_implementation_defined.md U2; log 3). -/
opaque Config.orientAfterReset : Nat → BitVec 2

/-- `TEXT_WRAP_COLUMN` (43_rasterizer.md R154): where a wrap puts the cursor's x. -/
inductive TextWrapColumn where
  | origin
  | zero
  deriving DecidableEq, Repr

/-- `TEXT_CHECK_ORDER` (43_rasterizer.md R153): whether the wrap and stop tests come before or after the draw. -/
inductive TextCheckOrder where
  | before
  | after
  deriving DecidableEq, Repr

/-- The configuration parameters whose value the spec decides and whose alternative it names (00_scope.md R7). The
operations take them as an argument; the values of this hardware are `Machine.fbcoreParams`. -/
structure Params where
  /-- `ROT90_ELSE_BASE`, 63 or 127 (41_transform.md R113). -/
  rot90ElseBase  : Int
  textWrapColumn : TextWrapColumn
  textCheckOrder : TextCheckOrder
  deriving DecidableEq, Repr

end Sys2Proof
end

