-- ==== Sys2Proof/Machine/State.lean ====
section
/-! DEFINITION. The state of FBCORE as plain data (10_state.md R36, with the ports of R30), the reasons a step can stop,
and the state after reset (10_state.md R32). -/

namespace Sys2Proof.Machine

/-- The byte index of the Framebuffer, 0..1023: ten bits, so that no other index can be formed (20_memory.md R40). -/
abbrev FbIndex := Fin 1024

/-- The Framebuffer's bytes: the cells that differ from `blankByte`, addresses strictly rising. -/
abbrev Memory := List Host.Cell

/-- What a byte of the Framebuffer that no cell lists reads as. The spec gives no reset contents (10_state.md R32);
DESIGN CHOICE, unsafe (log 1). -/
def blankByte : Byte := 0x00

/-- One snapshot event: the bytes of the Framebuffer in index order (10_state.md R29). -/
abbrev Snapshot := List Byte

/-- The state of the machine. -/
structure State where
  /-- `FB` (10_state.md R22). -/
  fb     : Memory
  /-- `ORIENT` (10_state.md R24). -/
  orient : Orientation
  /-- `FAULT` (10_state.md R25). -/
  fault  : Bool
  /-- `FCODE` (10_state.md R25). -/
  fcode  : BitVec 2
  /-- `FONT`, the font ROM; no step writes it (10_state.md R26; log 4). -/
  font   : FontRom
  /-- `OUT`: the snapshots emitted since reset, oldest first (10_state.md R29). -/
  out    : List Snapshot
  /-- The command port: words presented and not yet consumed, oldest first (10_state.md R30; log 6). -/
  port   : List Word
  /-- The number of words consumed since reset (10_state.md R21). -/
  cp     : Nat
  /-- The line `rst`, sampled by the next step (70_reset_and_hazards.md R190; log 8). -/
  rst    : Bool
  /-- THE MODEL'S OWN: resets sampled so far, which the free values of Config are applied to (log 3). -/
  resets : Nat
  deriving DecidableEq, Repr

/-- The reasons a step stops. There are none: the spec's one fault, `IllegalCommand`, has an entry the spec describes and
is a next state (60_exceptions.md R171), every other condition has a defined result (R170), and waiting is a next state
(R174; log 5). -/
inductive Fault where
  deriving DecidableEq, Repr

/-- The reasons the model gives an instruction no meaning. -/
inductive Refusal where
  /-- Raised by an arm of `exec` for an instruction without a meaning; safe. No arm raises it now. -/
  | notModelled (mnemonic : String)
  deriving DecidableEq, Repr

/-- The state after a reset that leaves `FB` and `ORIENT` at the given values: the spec says they may be any
(10_state.md R32), and gives every other value. -/
def State.resetWith (fb : Memory) (orient : Orientation) (font : FontRom) : State where
  fb := fb
  orient := orient
  fault := false
  fcode := 0
  font := font
  out := []
  port := []
  cp := 0
  rst := false
  resets := 0

/-- The machine right after reset: `FB` with nothing listed (log 1), `ORIENT` NORMAL (log 2), both DESIGN CHOICES and
unsafe; the font ROM with its configured contents (log 4). -/
def State.reset : State := State.resetWith [] .normal Config.font

end Sys2Proof.Machine
end

