-- ==== Sys2Proof/Machine/Operands.lean ====
section
/-! DEFINITION. The operand forms: the range test and pixel address, the coordinate transform, the logical extents, the
glyph lookup and the text cursor. -/

namespace Sys2Proof.Machine

/-! ### The pixel address (20_memory.md R41) -/

/-- The point is a physical pixel (00_scope.md R10). -/
abbrev InRange (px py : Int) : Prop := 0 ≤ px ∧ px < 128 ∧ 0 ≤ py ∧ py < 64

/-- `a = x + (y div 8)*128`, on the ten address bits of the RAM (20_memory.md R41; 10_state.md R31). It is used only for
a point in range (20_memory.md R54), where the ten bits lose nothing. -/
def byteIndex (px py : Int) : FbIndex := Fin.ofNat 1024 (px.toNat + py.toNat / 8 * 128)

/-- `k = y mod 8` (20_memory.md R41). -/
def bitIndex (py : Int) : Nat := py.toNat % 8

/-! ### The coordinate transform (41_transform.md) -/

/-- The values of the parameters for this hardware (00_scope.md R7; the spec's decisions D12, D18, D19; log 9, log 10). -/
def fbcoreParams : Params where
  rot90ElseBase := 63
  textWrapColumn := .origin
  textCheckOrder := .before

/-- `T(o, lx, ly)` (41_transform.md R112), with the else-branch of ROT90 as a parameter (R113). -/
def transform (p : Params) (o : Orientation) (lx ly : Int) : Int × Int :=
  match o with
  | .normal => (lx, ly)
  | .rot90 => (ly, if 0 ≤ lx ∧ lx < 64 ∧ 0 ≤ ly ∧ ly < 128 then 63 - lx else p.rot90ElseBase - lx)
  | .rot180 => (127 - lx, 63 - ly)
  | .rot270 => (63 - ly, lx)

/-- `LW(o)` (41_transform.md R115). -/
def logicalWidth : Orientation → Int
  | .normal => 128
  | .rot90 => 64
  | .rot180 => 128
  | .rot270 => 64

/-- `LH(o)` (41_transform.md R115). -/
def logicalHeight : Orientation → Int
  | .normal => 64
  | .rot90 => 128
  | .rot180 => 64
  | .rot270 => 128

/-! ### Glyphs (43_rasterizer.md R144, R145) -/

/-- `GlyphIndex(code)`: codes outside 32..126 are drawn as `?`, index 31 (43_rasterizer.md R145). -/
def glyphIndex (code : Byte) : Fin 95 :=
  if h : 32 ≤ code.toNat ∧ code.toNat ≤ 126 then ⟨code.toNat - 32, by omega⟩ else 31

/-- The bit of column `c`, row `r` of a glyph: bit r of column byte c (43_rasterizer.md R144). -/
def glyphBit (g : Vector Byte 5) (c : Fin 5) (r : Nat) : Bool := g[c].getLsbD r

/-! ### The text cursor (43_rasterizer.md R150) -/

/-- A character that DRAWTXT draws, with the cursor it is drawn at. -/
structure TextCell where
  cx   : Int
  cy   : Int
  code : Byte
  deriving DecidableEq, Repr

/-- The characters drawn from cursor `(cx, cy)` on, in order: per character the wrap test, the stop test, the draw, the
advance (43_rasterizer.md R150). `col` is the column a wrap returns to (R154), `lw` and `lh` the logical extents. -/
def textCellsFrom (lw lh scale col : Int) : Int → Int → List Byte → List TextCell
  | _, _, [] => []
  | cx, cy, code :: rest =>
    let wraps := cx > lw - 6 * scale
    let cx' := if wraps then col else cx
    let cy' := if wraps then cy + 8 * scale else cy
    if cy' > lh - 8 * scale then []
    else ⟨cx', cy', code⟩ :: textCellsFrom lw lh scale col (cx' + 6 * scale) cy' rest

/-- The column a wrap returns to (43_rasterizer.md R154). -/
def wrapColumn (p : Params) (x : Int) : Int :=
  match p.textWrapColumn with
  | .origin => x
  | .zero => 0

/-- The characters DRAWTXT draws, with their cursors. With `TEXT_CHECK_ORDER = after` the first character is drawn before
any test (43_rasterizer.md R153). -/
def textCells (p : Params) (o : Orientation) (x y : Int) (text : List Byte) (scale : Byte) : List TextCell :=
  let s : Int := scale.toNat
  let lw := logicalWidth o
  let lh := logicalHeight o
  match p.textCheckOrder, text with
  | .before, _ => textCellsFrom lw lh s (wrapColumn p x) x y text
  | .after, [] => []
  | .after, code :: rest => ⟨x, y, code⟩ :: textCellsFrom lw lh s (wrapColumn p x) (x + 6 * s) y rest

end Sys2Proof.Machine
end

