-- ==== Sys2Proof/Machine/Ops.lean ====
section
/-! DEFINITION. The named operations: reading and writing one byte of the Framebuffer, the pixel writes, the Rasterizer's
pixel requests, the command port, the entry into the fault state and the reset that leaves it. -/

namespace Sys2Proof.Machine

/-! ### The Framebuffer's bytes -/

/-- What the cells hold at an address: the first cell of that address, `blankByte` where there is none. -/
def Memory.lookup : Memory → Nat → Byte
  | [], _ => blankByte
  | (k, v) :: rest, a => if k = a then v else Memory.lookup rest a

/-- `MemRead(a, 1)` (00_scope.md R10). -/
def Memory.read (m : Memory) (a : FbIndex) : Byte := Memory.lookup m a

/-- The cells without those of one address. -/
def Memory.erase (m : Memory) (a : Nat) : Memory := m.filter fun c => decide (c.1 ≠ a)

/-- The cells with one more, before the first of a higher address. -/
def Memory.insert (a : Nat) (v : Byte) : Memory → Memory
  | [] => [(a, v)]
  | (k, w) :: rest => if a < k then (a, v) :: (k, w) :: rest else (k, w) :: Memory.insert a v rest

/-- `MemWrite(a, 1, v)` (00_scope.md R10). A byte that becomes `blankByte` loses its cell. -/
def Memory.write (m : Memory) (a : FbIndex) (v : Byte) : Memory :=
  if v = blankByte then Memory.erase m a else Memory.insert a v (Memory.erase m a)

/-- The canonical form above a lower bound: addresses strictly rising, none outside 0..1023, no cell `blankByte`. -/
def Memory.wfFrom : Nat → Memory → Bool
  | _, [] => true
  | lo, (k, v) :: rest => decide (lo ≤ k) && decide (k < 1024) && decide (v ≠ blankByte) && Memory.wfFrom (k + 1) rest

/-- The canonical form of the Framebuffer's cells. -/
def Memory.wf (m : Memory) : Bool := Memory.wfFrom 0 m

/-- The byte indices from one on, ascending. -/
def indicesFrom (start : Nat) : Nat → List FbIndex
  | 0 => []
  | n + 1 => Fin.ofNat 1024 start :: indicesFrom (start + 1) n

/-- All 1024 byte indices in ascending order (20_memory.md R43). -/
def allIndices : List FbIndex := indicesFrom 0 1024

/-- A Framebuffer that holds the given bytes. -/
def Memory.ofBytes (b : Vector Byte 1024) : Memory := allIndices.foldl (fun m a => Memory.write m a b[a]) []

/-- Writing 0x00 to every byte (40_framebuffer.md R90). -/
def Memory.zeroAll (m : Memory) : Memory := allIndices.foldl (fun m a => Memory.write m a 0x00) m

/-- The bytes in index order (40_framebuffer.md R95). -/
def Memory.bytes (m : Memory) : Snapshot := allIndices.map (Memory.read m)

/-! ### The pixel writes -/

/-- The byte `b` with bit k set or cleared (40_framebuffer.md R92). -/
def putBit (b : Byte) (k : Nat) (on : Bool) : Byte :=
  if on then b ||| (1#8 <<< k) else b &&& (0xFF#8 ^^^ (1#8 <<< k))

/-- `SetPixel(px, py, on)` (40_framebuffer.md R92): set or clear one bit, nothing when the point is out of range. -/
def setPixel (m : Memory) (px py : Int) (on : Bool) : Memory :=
  if InRange px py then
    Memory.write m (byteIndex px py) (putBit (Memory.read m (byteIndex px py)) (bitIndex py) on)
  else m

/-- `GetPixel(px, py)`, for a point in range (40_framebuffer.md R97). For stating properties; no command reads a pixel. -/
def getPixel (m : Memory) (px py : Int) : Bool := (Memory.read m (byteIndex px py)).getLsbD (bitIndex py)

/-- `DrawPixel(lx, ly, on)`: the transform, then `SetPixel` (42_pixel_writer.md R130). -/
def drawPixel (p : Params) (o : Orientation) (m : Memory) (lx ly : Int) (on : Bool) : Memory :=
  setPixel m (transform p o lx ly).1 (transform p o lx ly).2 on

/-! ### The Rasterizer's requests -/

/-- One `DrawPixel` request, the Rasterizer's only way to the Framebuffer (10_state.md R31; 42_pixel_writer.md R132). -/
structure PixelReq where
  lx : Int
  ly : Int
  on : Bool
  deriving DecidableEq, Repr

/-- The Pixel Writer serving requests in order, each complete before the next (20_memory.md R49). -/
def drawAll (p : Params) (o : Orientation) (m : Memory) (reqs : List PixelReq) : Memory :=
  reqs.foldl (fun m r => drawPixel p o m r.lx r.ly r.on) m

/-- The byte a request stores to; none when its physical point is out of range. -/
def storedByte (p : Params) (o : Orientation) (r : PixelReq) : Option FbIndex :=
  let q := transform p o r.lx r.ly
  if InRange q.1 q.2 then some (byteIndex q.1 q.2) else none

/-- The bytes a list of requests stores to. -/
def storedBytes (p : Params) (o : Orientation) (reqs : List PixelReq) : List FbIndex := reqs.filterMap (storedByte p o)

/-- The test pattern: y outer, x inner, on where the block indices have an even sum (43_rasterizer.md R141). -/
def testPatternReqs : List PixelReq :=
  (List.range 64).flatMap fun (y : Nat) => (List.range 128).map fun (x : Nat) =>
    ⟨(x : Int), (y : Int), decide ((x / 8 + y / 8) % 2 = 0)⟩

/-- A `scale × scale` block with its top-left corner at `(x, y)`: dy outer, dx inner (43_rasterizer.md R146). -/
def blockReqs (x y : Int) (on : Bool) (scale : Nat) : List PixelReq :=
  (List.range scale).flatMap fun dy => (List.range scale).map fun dx => ⟨x + dx, y + dy, on⟩

/-- A glyph: for each column and each of 8 rows whose bit is set, one block (43_rasterizer.md R146, R147). -/
def glyphReqs (g : Vector Byte 5) (x y : Int) (on : Bool) (scale : Nat) : List PixelReq :=
  (List.finRange 5).flatMap fun c => (List.range 8).flatMap fun r =>
    if glyphBit g c r then blockReqs (x + c.val * scale) (y + r * scale) on scale else []

/-- `DrawChar(x, y, code, on, scale)` as its requests (43_rasterizer.md R146). -/
def charReqs (font : FontRom) (x y : Int) (code : Byte) (on : Bool) (scale : Byte) : List PixelReq :=
  glyphReqs font[glyphIndex code] x y on scale.toNat

/-- DRAWTXT as its requests: one `DrawChar` per drawn character, in order (43_rasterizer.md R150, R157). -/
def textReqs (p : Params) (font : FontRom) (o : Orientation) (x y : Int) (text : List Byte) (on : Bool) (scale : Byte) :
    List PixelReq :=
  (textCells p o x y text scale).flatMap fun t => charReqs font t.cx t.cy t.code on scale

/-! ### Updates of the state -/

/-- The state with other Framebuffer contents. -/
def State.withFb (s : State) (m : Memory) : State := { s with fb := m }

/-- `ORIENT <- o` (41_transform.md R110). -/
def State.withOrient (s : State) (o : Orientation) : State := { s with orient := o }

/-- `emit Snapshot(b)`: OUT is append-only (10_state.md R29). -/
def State.emit (s : State) (b : Snapshot) : State := { s with out := s.out ++ [b] }

/-- Taking n words from the command port (10_state.md R21). -/
def State.consume (s : State) (n : Nat) : State := { s with port := s.port.drop n, cp := s.cp + n }

/-- The host presents words on the command port (10_state.md R30). -/
def State.present (s : State) (ws : List Word) : State := { s with port := s.port ++ ws }

/-- The host raises `rst`, to be sampled by the next step (70_reset_and_hazards.md R190; log 8). -/
def State.raiseReset (s : State) : State := { s with rst := true }

/-! ### Entering the fault state and leaving it -/

/-- `raise IllegalCommand(cause)`: FAULT and FCODE are written, nothing is saved, nothing else changes
(60_exceptions.md R171). -/
def State.raiseIllegal (s : State) (c : IllegalCause) : State := { s with fault := true, fcode := c.code }

/-- An illegal header word: it is consumed and `IllegalCommand` is raised (60_exceptions.md R171). -/
def takeIllegal (s : State) (c : IllegalCause) : State := (s.consume 1).raiseIllegal c

/-- A word presented in the fault state: accepted and discarded (60_exceptions.md R172). -/
def discardWord (s : State) : State := s.consume 1

/-- A reset sampled during a run, the only way out of the fault state (60_exceptions.md R173; 70_reset_and_hazards.md
R190). FB and ORIENT are unspecified afterwards, hence free values (log 3); the font ROM keeps its contents; the words
still queued are gone, a partly received DRAWTXT with them (10_state.md R32); the line is released (log 8). -/
def takeReset (s : State) : State where
  fb := Memory.ofBytes (Config.fbAfterReset s.resets)
  orient := Orientation.ofBits (Config.orientAfterReset s.resets)
  fault := false
  fcode := 0
  font := s.font
  out := []
  port := []
  cp := 0
  rst := false
  resets := s.resets + 1

end Sys2Proof.Machine
end

