-- ==== Sys2Proof/Machine/Framebuffer.lean ====
section
/-! DEFINITION. The Framebuffer's commands CLEAR, PSET and SNAP (40_framebuffer.md). -/

namespace Sys2Proof.Machine

/-- CLEAR: every byte becomes 0x00, whatever the orientation (40_framebuffer.md R90). -/
def execClear (s : State) : Host.Outcome State Fault Refusal := .next (s.withFb (Memory.zeroAll s.fb))

/-- PSET: `SetPixel` on physical coordinates, without the transform (40_framebuffer.md R93). -/
def execPset (x y : Int) (on : Bool) (s : State) : Host.Outcome State Fault Refusal :=
  .next (s.withFb (setPixel s.fb x y on))

/-- SNAP: the 1024 bytes, in index order, are appended to OUT (40_framebuffer.md R95). -/
def execSnap (s : State) : Host.Outcome State Fault Refusal := .next (s.emit (Memory.bytes s.fb))

end Sys2Proof.Machine
end

