-- ==== Sys2Proof/Machine/PixelWriter.lean ====
section
/-! DEFINITION. The Pixel Writer's command DRAWPX (42_pixel_writer.md). -/

namespace Sys2Proof.Machine

/-- DRAWPX: `DrawPixel` on logical coordinates under the current orientation (42_pixel_writer.md R131). -/
def execDrawpx (x y : Int) (on : Bool) (s : State) : Host.Outcome State Fault Refusal :=
  .next (s.withFb (drawPixel fbcoreParams s.orient s.fb x y on))

end Sys2Proof.Machine
end

