-- ==== Sys2Proof/Machine/Rasterizer.lean ====
section
/-! DEFINITION. The Rasterizer's commands TESTPAT, DRAWCH and DRAWTXT (43_rasterizer.md). Each changes the Framebuffer
only through the Pixel Writer's `drawAll` (42_pixel_writer.md R132). -/

namespace Sys2Proof.Machine

/-- TESTPAT: the checkerboard, drawn through the current orientation (43_rasterizer.md R141). -/
def execTestpat (s : State) : Host.Outcome State Fault Refusal :=
  .next (s.withFb (drawAll fbcoreParams s.orient s.fb testPatternReqs))

/-- DRAWCH: one `DrawChar`, without a wrap or stop test (43_rasterizer.md R149). -/
def execDrawch (x y : Int) (code : Byte) (on : Bool) (scale : Byte) (s : State) : Host.Outcome State Fault Refusal :=
  .next (s.withFb (drawAll fbcoreParams s.orient s.fb (charReqs s.font x y code on scale)))

/-- DRAWTXT: the characters that fit, each one `DrawChar` at its cursor (43_rasterizer.md R150). -/
def execDrawtxt (x y : Int) (text : List Byte) (on : Bool) (scale : Byte) (s : State) : Host.Outcome State Fault Refusal :=
  .next (s.withFb (drawAll fbcoreParams s.orient s.fb (textReqs fbcoreParams s.font s.orient x y text on scale)))

end Sys2Proof.Machine
end

