-- ==== Sys2Proof/Machine/Transform.lean ====
section
/-! DEFINITION. The Coordinate Transform's command SETORIENT (41_transform.md). -/

namespace Sys2Proof.Machine

/-- SETORIENT: ORIENT is set; the Framebuffer is neither read nor written (41_transform.md R110). -/
def execSetorient (o : Orientation) (s : State) : Host.Outcome State Fault Refusal := .next (s.withOrient o)

end Sys2Proof.Machine
end

