-- ==== Sys2Proof/Machine/Dispatch.lean ====
section
/-! DEFINITION. One arm per command. -/

namespace Sys2Proof.Machine

def exec (i : Instr) (s : State) : Host.Outcome State Fault Refusal :=
  match i with
  | .clear => Sys2Proof.Machine.execClear s
  | .setorient o => Sys2Proof.Machine.execSetorient o s
  | .pset x y on => Sys2Proof.Machine.execPset x y on s
  | .drawpx x y on => Sys2Proof.Machine.execDrawpx x y on s
  | .testpat => Sys2Proof.Machine.execTestpat s
  | .drawch x y code on scale => Sys2Proof.Machine.execDrawch x y code on scale s
  | .drawtxt x y text on scale => Sys2Proof.Machine.execDrawtxt x y text on scale s
  | .snap => Sys2Proof.Machine.execSnap s

end Sys2Proof.Machine
end

