-- ==== Sys2Proof/Machine/Step.lean ====
section
/-! DEFINITION. One step of the machine: the reset line, then the words at the front of the command port. -/

namespace Sys2Proof.Machine

/-- One step. `rst` is sampled first (70_reset_and_hazards.md R190; log 8). Without a word FBCORE waits (R192; log 5). In
the fault state a word is discarded (60_exceptions.md R172). Otherwise the word is a header: a legal command takes its
words from the port and runs (30_encoding.md R69; 10_state.md R21), an illegal word raises `IllegalCommand`
(60_exceptions.md R171), and a DRAWTXT whose payload is not all there waits (R174; log 5). -/
def step (s : State) : Host.Outcome State Fault Refusal :=
  if s.rst then .next (takeReset s)
  else
    match s.port with
    | [] => .next s
    | w :: rest =>
      if s.fault then .next (discardWord s)
      else
        match decode (w :: rest) with
        | .command i n => exec i (s.consume n)
        | .illegal c => .next (takeIllegal s c)
        | .incomplete => .next s
        | .noWord => .next s

/-- The host presents the instruction whose bits are `w` so that it is the next the machine takes: its words stand at
the front of the command port, the reset line is released and the machine is not in the fault state (log 7). -/
def State.withFetchWord (s : State) (nbits w : Nat) : State :=
  { s with port := tableWords nbits w ++ s.port, rst := false, fault := false, fcode := 0 }

end Sys2Proof.Machine
end

