-- ==== Sys2Proof/Machine/Flags.lean ====
section
/-! DEFINITION. FBCORE has no flags and no condition codes (10_state.md R33). What it has instead are the status outputs
of its ports (10_state.md R30), here as functions of the state between two steps. -/

namespace Sys2Proof.Machine

/-- FBCORE has taken a legal DRAWTXT header and waits for payload words (60_exceptions.md R174). -/
def State.awaitsPayload (s : State) : Bool := !s.fault && decide (decode s.port = .incomplete)

/-- `busy`: between two steps a command is under way only while its payload is awaited (10_state.md R30; log 5). -/
def State.busy (s : State) : Bool := s.awaitsPayload

/-- `cmd_ready`: 0 while `busy`, but 1 while a payload word is awaited; 1 in the fault state (10_state.md R30;
60_exceptions.md R172). -/
def State.cmdReady (s : State) : Bool := !s.busy || s.awaitsPayload

/-- `orient_o` (10_state.md R30). -/
def State.orientO (s : State) : BitVec 2 := s.orient.toBits

/-- `fault_o` (10_state.md R30). -/
def State.faultO (s : State) : BitVec 1 := BitVec.ofBool s.fault

/-- `fcode_o` (10_state.md R30). -/
def State.fcodeO (s : State) : BitVec 2 := s.fcode

/-- Every byte that has left on `out_data` since reset: the snapshots in order, each in index order (10_state.md R30). -/
def State.outData (s : State) : List Byte := s.out.flatten

end Sys2Proof.Machine
end

