-- ==== Sys2Proof/Safety.lean ====
section
/-! DEFINITION. What a good state and a good end of a run are, in the terms the claims use. -/

namespace Sys2Proof.Machine

/-- The invariants of every reachable state (10_state.md R37), with the canonical form of the Framebuffer's cells and the
size of a snapshot (10_state.md R29): `FCODE` is 0 without a fault and 1 or 2 with one. -/
structure State.Inv (s : State) : Prop where
  fb_wf       : Memory.wf s.fb = true
  fcode_clear : s.fault = false → s.fcode = 0
  fcode_cause : s.fault = true → s.fcode = 1 ∨ s.fcode = 2
  out_size    : ∀ b ∈ s.out, b.length = 1024

/-- `k` steps of the machine, stopping at the first fault or refusal. -/
def run : Nat → State → Host.Outcome State Fault Refusal
  | 0, s => .next s
  | k + 1, s =>
    match step s with
    | .next t => run k t
    | .fault r => .fault r
    | .refused r => .refused r

/-- A run has ended: no word is left on the port (70_reset_and_hazards.md R202). A DRAWTXT that waits keeps its words
there, so it has not ended. -/
def State.ended (s : State) : Bool := s.port.isEmpty && !s.busy

/-- A run has ended well: it has ended and `FAULT` is 0 (70_reset_and_hazards.md R202). -/
def State.endedWell (s : State) : Bool := s.ended && !s.fault

end Sys2Proof.Machine
end

