-- ==== Sys2Proof/Certificates/Slice0/Obligations.lean ====
section
/-! DEFINITION. The statements for the provers. "Derived" in a docstring says that the statement rests on a rule the spec
itself marks as derived or as its own decision (D<n> of 92_eei_decisions.md), or on a choice of the model (log <n>). -/

open Sys2Proof Sys2Proof.Machine

/-! ### Encoding -/

/-- Every worked encoding of 30_encoding.md section 8, legal and illegal, two words of 95_test_vectors.md section 3 (V54,
V56), and a payload that has not arrived (section 9, V195). Derived: decisions D2, D3, D4, D20, D32. -/
def Obligations.SpecWordsDecodeAsTheSpecSays : Prop :=
  decode [0x0100000000000000#64] = .command .clear 1 ∧
  decode [0x0200000000000000#64] = .command (.setorient .normal) 1 ∧
  decode [0x0200000100000000#64] = .command (.setorient .rot90) 1 ∧
  decode [0x0200000200000000#64] = .command (.setorient .rot180) 1 ∧
  decode [0x0200000300000000#64] = .command (.setorient .rot270) 1 ∧
  decode [0x030100000005000A#64] = .command (.pset 5 10 true) 1 ∧
  decode [0x030000000005000A#64] = .command (.pset 5 10 false) 1 ∧
  decode [0x03010000FFFF0000#64] = .command (.pset (-1) 0 true) 1 ∧
  decode [0x030100000000FFFF#64] = .command (.pset 0 (-1) true) 1 ∧
  decode [0x03010000007F003F#64] = .command (.pset 127 63 true) 1 ∧
  decode [0x04010000000A0014#64] = .command (.drawpx 10 20 true) 1 ∧
  decode [0x0500000000000000#64] = .command .testpat 1 ∧
  decode [0x06010241000A0004#64] = .command (.drawch 10 4 0x41 true 2) 1 ∧
  decode [0x060101C800000000#64] = .command (.drawch 0 0 200 true 1) 1 ∧
  decode [0x0601FFFFFFFFFFFF#64] = .command (.drawch (-1) (-1) 255 true 255) 1 ∧
  decode [0x0701010200000000#64, 0x0000000000003F41#64] = .command (.drawtxt 0 0 [0x41, 0x3F] true 1) 2 ∧
  decode [0x0701010900000000#64, 0x4847464544434241#64, 0x0000000000000049#64] =
    .command (.drawtxt 0 0 [0x41, 0x42, 0x43, 0x44, 0x45, 0x46, 0x47, 0x48, 0x49] true 1) 3 ∧
  decode [0x0701010000000000#64] = .command (.drawtxt 0 0 [] true 1) 1 ∧
  decode [0x0701010900000000#64, 0x4141414141414141#64] = .incomplete ∧
  decode [0x0800000000000000#64] = .command .snap 1 ∧
  decode [0x0000000000000000#64] = .illegal .reservedOpcode ∧
  decode [0x0900000000000000#64] = .illegal .reservedOpcode ∧
  decode [0x0900000000000001#64] = .illegal .reservedOpcode ∧
  decode [0x0100000000000001#64] = .illegal .mustBeZero ∧
  decode [0x0200000400000000#64] = .illegal .mustBeZero ∧
  decode [0x0301010000000000#64] = .illegal .mustBeZero ∧
  decode [0x0403000000000000#64] = .illegal .mustBeZero

/-- Decoding the words of a well-formed instruction, whatever words follow, gives the instruction back and takes exactly
its words. Derived: decisions D2, D3, D4, D6, D7, D8, D9, D20. -/
def Obligations.DecodeOfEncodeIsTheInstruction : Prop :=
  ∀ (i : Instr) (rest : List Word), i.wellFormed = true →
    decode (encode i ++ rest) = .command i (encode i).length

/-- The other direction: words that decode to an instruction are its encoding, header word and every character of the
payload; only the unused bytes of the last payload word are free. Derived: decisions D2, D3, D4, D20. -/
def Obligations.EveryDecodedWordIsTheEncoding : Prop :=
  ∀ (ws : List Word) (i : Instr) (n : Nat), decode ws = .command i n →
    i.wellFormed = true ∧ n = (encode i).length ∧ n ≤ ws.length ∧ ws.head? = (encode i).head? ∧
    ∀ x y text on scale, i = .drawtxt x y text on scale →
      ∀ k < text.length, payloadChar ws.tail k = payloadChar (encode i).tail k

/-- The order of decoding a header word: a reserved opcode first, then a must-be-zero bit, and otherwise the word is
legal; every word falls under one of the three. Derived: decisions D3, D4, D42. -/
def Obligations.HeaderIsLegalOrIllegalByCause : Prop :=
  ∀ (w : Word) (rest : List Word),
    (¬ (1 ≤ (opField w).toNat ∧ (opField w).toNat ≤ 8) → decode (w :: rest) = .illegal .reservedOpcode) ∧
    (∀ c : Opcode, opField w = c.toByte → w &&& c.maskBits ≠ c.matchBits →
      decode (w :: rest) = .illegal .mustBeZero) ∧
    (∀ c : Opcode, opField w = c.toByte → w &&& c.maskBits = c.matchBits →
      ∀ cause, decode (w :: rest) ≠ .illegal cause) ∧
    (1 ≤ (opField w).toNat ∧ (opField w).toNat ≤ 8 → ∃ c : Opcode, opField w = c.toByte)

/-- The eight (match, mask) pairs are pairwise disjoint, and a row only selects words of its own opcode. Derived:
decisions D3, D4. -/
def Obligations.OpcodeRowsAreDisjoint : Prop :=
  ∀ (w : Word) (c c' : Opcode), w &&& c.maskBits = c.matchBits →
    opField w = c.toByte ∧ (w &&& c'.maskBits = c'.matchBits → c = c')

/-- A legal DRAWTXT header takes the next `ceil(len/8)` words as its payload whatever they hold, character i from bits
8*(i mod 8)+7 : 8*(i mod 8) of payload word i div 8; with fewer words it is not complete. Derived: decisions D20, D32. -/
def Obligations.DrawtxtTakesItsPayloadWords : Prop :=
  ∀ (w : Word) (rest : List Word), w &&& Opcode.drawtxt.maskBits = Opcode.drawtxt.matchBits →
    (rest.length < ((argField w).toNat + 7) / 8 → decode (w :: rest) = .incomplete) ∧
    (((argField w).toNat + 7) / 8 ≤ rest.length →
      ∃ text : List Byte, text.length = (argField w).toNat ∧
        (∀ i < text.length, ∃ p, rest[i / 8]? = some p ∧ text[i]? = some (p.extractLsb' (8 * (i % 8)) 8)) ∧
        decode (w :: rest) =
          .command (.drawtxt (xField w) (yField w) text (onField w) (scaleField w)) (1 + ((argField w).toNat + 7) / 8))

/-! ### The step -/

/-- Without a reset and outside the fault state, a step whose words decode to an instruction is `exec` of it on the state
that has taken the words: they are gone from the port, `cp` counts them, nothing else differs. Derived: decision D24,
log 6, log 8. -/
def Obligations.StepRunsTheDecodedCommand : Prop :=
  ∀ (s : State) (i : Instr) (n : Nat), s.rst = false → s.fault = false → decode s.port = .command i n →
    step s = exec i { s with port := s.port.drop n, cp := s.cp + n }

/-- An illegal header word is consumed, sets FAULT and writes the cause to FCODE, and changes nothing else: cause 1 for a
reserved opcode, cause 2 for a must-be-zero bit; the words after it stay on the port, even after opcode 0x07. Derived:
decisions D5, D42. -/
def Obligations.IllegalWordEntersTheFaultState : Prop :=
  ∀ (s : State) (w : Word) (rest : List Word), s.rst = false → s.fault = false → s.port = w :: rest →
    (¬ (1 ≤ (opField w).toNat ∧ (opField w).toNat ≤ 8) →
      step s = .next { s with port := rest, cp := s.cp + 1, fault := true, fcode := 1 }) ∧
    (∀ c : Opcode, opField w = c.toByte → w &&& c.maskBits ≠ c.matchBits →
      step s = .next { s with port := rest, cp := s.cp + 1, fault := true, fcode := 2 })

/-- In the fault state a word, legal or not, is accepted and discarded: no other change, FCODE keeps the first cause.
Derived: decision D5. -/
def Obligations.FaultStateDiscardsAWord : Prop :=
  ∀ (s : State) (w : Word) (rest : List Word), s.rst = false → s.fault = true → s.port = w :: rest →
    step s = .next { s with port := rest, cp := s.cp + 1 } ∧ s.cmdReady = true

/-- Without a reset the fault state is never left: after any number of steps only words have been discarded. Derived:
decisions D5, D39. -/
def Obligations.FaultStateLastsUntilReset : Prop :=
  ∀ (k : Nat) (s : State), s.rst = false → s.fault = true →
    run k s = .next { s with port := s.port.drop k, cp := s.cp + min k s.port.length }

/-- After a legal DRAWTXT header whose payload has not all arrived FBCORE waits: the state stays, `busy` is 1 and
`cmd_ready` is 1. Derived: decision D32, log 5. -/
def Obligations.DrawtxtWaitsForItsPayload : Prop :=
  ∀ (s : State) (w : Word) (rest : List Word), s.rst = false → s.fault = false → s.port = w :: rest →
    w &&& Opcode.drawtxt.maskBits = Opcode.drawtxt.matchBits → rest.length < ((argField w).toNat + 7) / 8 →
      step s = .next s ∧ s.busy = true ∧ s.cmdReady = true

/-- Without a word FBCORE waits and executes nothing of its own accord, after reset as at any time. Derived: decision D24,
log 5. -/
def Obligations.WithoutAWordNothingHappens : Prop :=
  (∀ s : State, s.rst = false → s.port = [] → step s = .next s ∧ s.busy = false) ∧
  (∀ fb o font, step (State.resetWith fb o font) = .next (State.resetWith fb o font))

/-- A sampled `rst` clears FAULT, FCODE, OUT and the command port, from any state, the fault state too, and keeps the
font; nothing is said of FB and ORIENT but that FB is in canonical form. Derived: decisions D21, D22, D23, D28, D39,
log 3, log 8. -/
def Obligations.SampledResetStartsANewRun : Prop :=
  ∀ s : State, s.rst = true →
    ∃ t, step s = .next t ∧ t.fault = false ∧ t.fcode = 0 ∧ t.out = [] ∧ t.port = [] ∧ t.cp = 0 ∧ t.rst = false ∧
      t.font = s.font ∧ Memory.wf t.fb = true

/-- The reset values the spec gives, whatever FB, ORIENT and the font hold. Derived: decisions D5, D21, D22, D23, D39;
State.reset's own FB and ORIENT are log 1 and log 2. -/
def Obligations.ResetValues : Prop :=
  (∀ fb o font, (State.resetWith fb o font).fault = false ∧ (State.resetWith fb o font).fcode = 0 ∧
    (State.resetWith fb o font).out = [] ∧ (State.resetWith fb o font).port = [] ∧
    (State.resetWith fb o font).font = font) ∧
  State.reset = State.resetWith [] .normal Config.font

/-- The invariants of 10_state.md R37 hold after reset, whatever canonical FB, ORIENT and font. Derived: R37 is marked
derived. -/
def Obligations.ResetMeetsTheInvariant : Prop :=
  (∀ fb o font, Memory.wf fb = true → (State.resetWith fb o font).Inv) ∧ State.reset.Inv

/-- Every step keeps the invariants of 10_state.md R37: the canonical form of FB, FCODE 0 without a fault and 1 or 2 with
one, snapshots of 1024 bytes. Derived: R37 is marked derived. -/
def Obligations.EveryStepKeepsTheInvariant : Prop :=
  ∀ s t : State, s.Inv → step s = .next t → t.Inv

/-- Every command and every step answers a next state: nothing the spec describes stops the machine. Derived: decisions
D5, D27, D32, log 5. -/
def Obligations.EveryCommandAndStepGoesOn : Prop :=
  (∀ (i : Instr) (s : State), ∃ t, exec i s = .next t) ∧ (∀ s : State, ∃ t, step s = .next t)

/-- A step does not depend on the words behind the ones it takes: where it does not wait, presenting more words before it
is the same as presenting them after it. Derived: decisions D20, D31. -/
def Obligations.WordsBehindACommandDoNotMatter : Prop :=
  ∀ (s t : State) (ws : List Word), s.rst = false → s.port ≠ [] → (s.fault = true ∨ decode s.port ≠ .incomplete) →
    step s = .next t → step (s.present ws) = .next (t.present ws)

/-- OUT is append-only without a reset: a step adds nothing or the snapshot of the FB it finds, so a later command never
alters an emitted snapshot. Derived: decision D21. -/
def Obligations.OutIsAppendOnly : Prop :=
  ∀ s t : State, s.rst = false → step s = .next t → t.out = s.out ∨ t.out = s.out ++ [Memory.bytes s.fb]

/-- What each command leaves alone: FAULT, FCODE, the font, the port, `cp`, `rst` and the model's counter always; ORIENT
but for SETORIENT; OUT but for SNAP; FB for SETORIENT and SNAP. Derived: decisions D3, D5, D15, D21. -/
def Obligations.CommandsLeaveOtherStateAlone : Prop :=
  ∀ (i : Instr) (s t : State), exec i s = .next t →
    t.fault = s.fault ∧ t.fcode = s.fcode ∧ t.font = s.font ∧ t.port = s.port ∧ t.cp = s.cp ∧ t.rst = s.rst ∧
    t.resets = s.resets ∧
    ((∀ o, i ≠ .setorient o) → t.orient = s.orient) ∧
    (i ≠ .snap → t.out = s.out) ∧
    ((∃ o, i = .setorient o) ∨ i = .snap → t.fb = s.fb)

/-- No step writes the font ROM, and without a reset ORIENT changes only in a step that runs a SETORIENT, to that
command's operand. Derived: decisions D9, D15. -/
def Obligations.OnlySetorientAndResetChangeOrient : Prop :=
  ∀ s t : State, step s = .next t →
    t.font = s.font ∧
    (s.rst = false → t.orient = s.orient ∨
      ∃ o n, s.fault = false ∧ decode s.port = .command (.setorient o) n ∧ t.orient = o)

/-! ### The Framebuffer -/

/-- The pixel mapping: byte `x + (y/8)*128`, bit `y % 8`, a bijection between the 8192 pixels and the bits of FB with the
inverse `x = a mod 128`, `y = 8*(a div 128) + k`. Derived: the bijection is marked derived. -/
def Obligations.PixelsAndBitsAreInBijection : Prop :=
  (∀ x y : Int, InRange x y →
    ((byteIndex x y).val : Int) = x + y / 8 * 128 ∧ (bitIndex y : Int) = y % 8 ∧
    x = ((byteIndex x y).val % 128 : Nat) ∧ y = (8 * ((byteIndex x y).val / 128) + bitIndex y : Nat)) ∧
  (∀ (a : FbIndex) (k : Nat), k < 8 →
    InRange (a.val % 128 : Nat) (8 * (a.val / 128) + k : Nat) ∧
    byteIndex (a.val % 128 : Nat) (8 * (a.val / 128) + k : Nat) = a ∧
    bitIndex (8 * (a.val / 128) + k : Nat) = k)

/-- CLEAR, the word with `op = 0x01` and all other bits zero, makes every byte of FB 0x00, from any state and under any
orientation, and changes nothing else (40_framebuffer.md R90). -/
def Obligations.ClearZeroesEveryByte : Prop :=
  (∀ rest, decode (0x0100000000000000#64 :: rest) = .command .clear 1) ∧
  ∀ s : State, ∃ m, exec .clear s = .next { s with fb := m } ∧ ∀ a, Memory.read m a = 0x00

/-- PSET, for a point in range, sets or clears bit `y mod 8` of byte `x + (y div 8)*128` and leaves every other bit and
byte; out of range it changes nothing. It changes no other state and does not depend on ORIENT. Derived: decisions D11,
D33. -/
def Obligations.PsetSetsOrClearsOneBit : Prop :=
  ∀ (x y : Int) (on : Bool) (s : State), ∃ m, exec (.pset x y on) s = .next { s with fb := m } ∧
    (InRange x y → ∀ a : FbIndex, Memory.read m a =
      if (a.val : Int) = x + y / 8 * 128 then
        (if on then Memory.read s.fb a ||| (1#8 <<< (y % 8).toNat)
         else Memory.read s.fb a &&& (0xFF#8 ^^^ (1#8 <<< (y % 8).toNat)))
      else Memory.read s.fb a) ∧
    (¬ InRange x y → m = s.fb)

/-- The properties of `set_pixel` the source states, with the spec's (c) and (d): the written pixel reads back, twice is
once; out of range nothing changes; no other pixel changes; writes to different pixels commute and the later of two
writes to one pixel wins. Derived: (c) and (d) are marked derived. -/
def Obligations.SetPixelProperties : Prop :=
  (∀ (x y : Int) (s : State), InRange x y → ∃ t u, exec (.pset x y true) s = .next t ∧
    getPixel t.fb x y = true ∧ exec (.pset x y false) t = .next u ∧ getPixel u.fb x y = false) ∧
  (∀ (x y : Int) (v : Bool) (s : State), ∃ t u, exec (.pset x y v) s = .next t ∧ exec (.pset x y v) t = .next u ∧
    ∀ a, Memory.read u.fb a = Memory.read t.fb a) ∧
  (∀ (x y : Int) (v : Bool) (s : State), ¬ InRange x y → exec (.pset x y v) s = .next s) ∧
  (∀ (x y x' y' : Int) (v : Bool) (s : State), InRange x y → InRange x' y' → (x', y') ≠ (x, y) →
    ∃ t, exec (.pset x y v) s = .next t ∧ getPixel t.fb x' y' = getPixel s.fb x' y') ∧
  (∀ (x y x' y' : Int) (v v' : Bool) (s : State), (x', y') ≠ (x, y) →
    ∃ t t' u u', exec (.pset x y v) s = .next t ∧ exec (.pset x' y' v') t = .next u ∧
      exec (.pset x' y' v') s = .next t' ∧ exec (.pset x y v) t' = .next u' ∧
      ∀ a, Memory.read u.fb a = Memory.read u'.fb a) ∧
  (∀ (x y : Int) (v v' : Bool) (s : State), ∃ t u u', exec (.pset x y v) s = .next t ∧
    exec (.pset x y v') t = .next u ∧ exec (.pset x y v') s = .next u' ∧
    ∀ a, Memory.read u.fb a = Memory.read u'.fb a)

/-- SNAP appends one snapshot to OUT, the 1024 bytes of FB in index order, and changes nothing else. Derived: decision
D21. -/
def Obligations.SnapEmitsEveryByteInOrder : Prop :=
  ∀ s : State, ∃ b : Snapshot, exec .snap s = .next { s with out := s.out ++ [b] } ∧ b.length = 1024 ∧
    ∀ a : FbIndex, b[a.val]? = some (Memory.read s.fb a)

/-- The commands that store to FB write no byte but those their pixels lie in: PSET the byte of its point, the others the
bytes of the points their requests land on after the transform. Derived: the requests rest on decisions D16, D17, D18,
D19. -/
def Obligations.DrawingStoresOnlyToItsBytes : Prop :=
  (∀ (x y : Int) (on : Bool) (s : State), ∃ t, exec (.pset x y on) s = .next t ∧
    ∀ a : FbIndex, ¬ (InRange x y ∧ a = byteIndex x y) → Memory.read t.fb a = Memory.read s.fb a) ∧
  (∀ (x y : Int) (on : Bool) (s : State), ∃ t, exec (.drawpx x y on) s = .next t ∧
    ∀ a : FbIndex, storedByte fbcoreParams s.orient ⟨x, y, on⟩ ≠ some a →
      Memory.read t.fb a = Memory.read s.fb a) ∧
  (∀ s : State, ∃ t, exec .testpat s = .next t ∧
    ∀ a : FbIndex, a ∉ storedBytes fbcoreParams s.orient testPatternReqs →
      Memory.read t.fb a = Memory.read s.fb a) ∧
  (∀ (x y : Int) (code : Byte) (on : Bool) (scale : Byte) (s : State),
    ∃ t, exec (.drawch x y code on scale) s = .next t ∧
    ∀ a : FbIndex, a ∉ storedBytes fbcoreParams s.orient (charReqs s.font x y code on scale) →
      Memory.read t.fb a = Memory.read s.fb a) ∧
  (∀ (x y : Int) (text : List Byte) (on : Bool) (scale : Byte) (s : State),
    ∃ t, exec (.drawtxt x y text on scale) s = .next t ∧
    ∀ a : FbIndex,
      a ∉ storedBytes fbcoreParams s.orient (textReqs fbcoreParams s.font s.orient x y text on scale) →
      Memory.read t.fb a = Memory.read s.fb a)

/-! ### The transform and the Pixel Writer -/

/-- SETORIENT, the words with `op = 0x02` whose other bits but 33:32 are zero, sets ORIENT to its operand in those two
bits and changes nothing else, FB included, so pixels already drawn stay where they are (41_transform.md R110). -/
def Obligations.SetorientSetsOnlyOrient : Prop :=
  (∀ (w : Word) (rest : List Word), w &&& 0xFFFFFFFCFFFFFFFF = 0x0200000000000000 →
    ∃ o, decode (w :: rest) = .command (.setorient o) 1 ∧ o.toBits = w.extractLsb' 32 2) ∧
  ∀ (o : Orientation) (s : State), exec (.setorient o) s = .next { s with orient := o }

/-- The transform table, for all integers, as 41_transform.md section 2 gives it. Derived: ROT90's one formula is decision
D12 (log 9), and ROT270's literal stands as printed (log 11). -/
def Obligations.TransformTable : Prop :=
  ∀ lx ly : Int,
    transform fbcoreParams .normal lx ly = (lx, ly) ∧
    transform fbcoreParams .rot90 lx ly = (ly, 63 - lx) ∧
    transform fbcoreParams .rot180 lx ly = (127 - lx, 63 - ly) ∧
    transform fbcoreParams .rot270 lx ly = (63 - ly, lx)

/-- The worked values the source states for the transform (41_transform.md R119). -/
def Obligations.TransformWorkedValues : Prop :=
  transform fbcoreParams .rot90 0 0 = (0, 63) ∧
  transform fbcoreParams .rot90 63 0 = (0, 0) ∧
  transform fbcoreParams .rot180 0 0 = (127, 63) ∧
  (∀ x y : Int, InRange x y → transform fbcoreParams .normal x y = (x, y) ∧
    ((byteIndex x y).val : Int) = x + y / 8 * 128 ∧ (bitIndex y : Int) = y % 8)

/-- The logical points that are written, per orientation; every other point is dropped. For ROT270 they are not the
logical space. Derived: R116 and R118 are marked derived (log 9, log 11). -/
def Obligations.WrittenLogicalPoints : Prop :=
  ∀ (o : Orientation) (lx ly : Int),
    InRange (transform fbcoreParams o lx ly).1 (transform fbcoreParams o lx ly).2 ↔
      match o with
      | .normal => 0 ≤ lx ∧ lx ≤ 127 ∧ 0 ≤ ly ∧ ly ≤ 63
      | .rot90 => 0 ≤ lx ∧ lx ≤ 63 ∧ 0 ≤ ly ∧ ly ≤ 127
      | .rot180 => 0 ≤ lx ∧ lx ≤ 127 ∧ 0 ≤ ly ∧ ly ≤ 63
      | .rot270 => 0 ≤ lx ∧ lx ≤ 63 ∧ -64 ≤ ly ∧ ly ≤ 63

/-- For each orientation the transform is a bijection of the integer points, with the inverses the spec lists; ROT270
inverts ROT90, ROT180 inverts itself, and ROT90 twice is not ROT180. Derived: R117 is marked derived (log 9,
log 11). -/
def Obligations.TransformIsABijection : Prop :=
  (∀ (o : Orientation) (px py : Int),
    (match o with
     | .normal => transform fbcoreParams o px py
     | .rot90 => transform fbcoreParams o (63 - py) px
     | .rot180 => transform fbcoreParams o (127 - px) (63 - py)
     | .rot270 => transform fbcoreParams o py (63 - px)) = (px, py)) ∧
  (∀ (o : Orientation) (lx ly lx' ly' : Int),
    transform fbcoreParams o lx ly = transform fbcoreParams o lx' ly' → lx = lx' ∧ ly = ly') ∧
  (∀ (lx ly : Int),
    (let q := transform fbcoreParams .rot90 lx ly; transform fbcoreParams .rot270 q.1 q.2) = (lx, ly) ∧
    (let q := transform fbcoreParams .rot180 lx ly; transform fbcoreParams .rot180 q.1 q.2) = (lx, ly) ∧
    (let q := transform fbcoreParams .rot90 lx ly; transform fbcoreParams .rot90 q.1 q.2) = (63 - lx, 63 - ly))

/-- The two readings of the ROT90 else-branch (`ROT90_ELSE_BASE` 63 and 127) write the same Framebuffer except for ROT90
with 64 <= lx <= 127 and 0 <= ly <= 127; there this machine drops the point and the other reading writes physical
(ly, 127 - lx). Derived: decision D12, log 9. -/
def Obligations.Rot90ReadingsDifferOnlyInTheBand : Prop :=
  ∀ (p : Params), p.rot90ElseBase = 127 → ∀ (o : Orientation) (m : Memory) (lx ly : Int) (on : Bool),
    (¬ (o = .rot90 ∧ 64 ≤ lx ∧ lx ≤ 127 ∧ 0 ≤ ly ∧ ly ≤ 127) →
      drawPixel p o m lx ly on = drawPixel fbcoreParams o m lx ly on) ∧
    (o = .rot90 ∧ 64 ≤ lx ∧ lx ≤ 127 ∧ 0 ≤ ly ∧ ly ≤ 127 →
      drawPixel fbcoreParams o m lx ly on = m ∧ InRange ly (127 - lx) ∧
      drawPixel p o m lx ly on = setPixel m ly (127 - lx) on)

/-- DRAWPX gives the pixel its point maps to the value `on` and no other pixel any other value; a point that maps out of
range changes nothing, and nothing but FB ever changes (42_pixel_writer.md R130). -/
def Obligations.DrawpxWritesTheTransformedPixel : Prop :=
  ∀ (x y : Int) (on : Bool) (s : State), ∃ m, exec (.drawpx x y on) s = .next { s with fb := m } ∧
    (∀ px py : Int, InRange px py →
      getPixel m px py = if transform fbcoreParams s.orient x y = (px, py) then on else getPixel s.fb px py) ∧
    (¬ InRange (transform fbcoreParams s.orient x y).1 (transform fbcoreParams s.orient x y).2 → m = s.fb)

/-- A pixel write whose physical point is out of range is dropped: DRAWPX leaves the whole state as it was, and among the
pixel requests of a larger command a dropped one changes nothing, the command going on with the next: the requests that
are in range do what they would do without it (42_pixel_writer.md R133). -/
def Obligations.DroppedPixelsChangeNothing : Prop :=
  (∀ (x y : Int) (on : Bool) (s : State),
    ¬ InRange (transform fbcoreParams s.orient x y).1 (transform fbcoreParams s.orient x y).2 →
      exec (.drawpx x y on) s = .next s) ∧
  (∀ (o : Orientation) (m : Memory) (reqs : List PixelReq),
    drawAll fbcoreParams o m reqs =
      drawAll fbcoreParams o m (reqs.filter fun r =>
        decide (InRange (transform fbcoreParams o r.lx r.ly).1 (transform fbcoreParams o r.lx r.ly).2)))

/-- Under NORMAL, DRAWPX and PSET with the same operands have the same effect. Derived: R131 marks it derived. -/
def Obligations.DrawpxUnderNormalIsPset : Prop :=
  ∀ (x y : Int) (on : Bool) (s : State), s.orient = .normal → exec (.drawpx x y on) s = exec (.pset x y on) s

/-- The properties the source states for `draw_pixel`, in bytes. Derived: the bytes are marked derived. -/
def Obligations.DrawPixelSourceProperties : Prop :=
  (∀ (x y : Int) (on : Bool) (s : State), s.orient = .normal → InRange x y →
    ∃ t, exec (.drawpx x y on) s = .next t ∧ getPixel t.fb x y = on ∧
      (∀ a : FbIndex, (a.val : Int) ≠ x + y / 8 * 128 → Memory.read t.fb a = Memory.read s.fb a) ∧
      (∀ a : FbIndex, (a.val : Int) = x + y / 8 * 128 → ∀ k : Nat, k < 8 → (k : Int) ≠ y % 8 →
        (Memory.read t.fb a).getLsbD k = (Memory.read s.fb a).getLsbD k)) ∧
  (∀ s : State, s.orient = .rot90 →
    (∃ t, exec (.drawpx 0 0 true) s = .next t ∧ getPixel t.fb 0 63 = true ∧
      Memory.read t.fb 896 = Memory.read s.fb 896 ||| 0x80#8) ∧
    (∃ t, exec (.drawpx 63 0 true) s = .next t ∧ getPixel t.fb 0 0 = true ∧
      Memory.read t.fb 0 = Memory.read s.fb 0 ||| 0x01#8)) ∧
  (∀ s : State, s.orient = .rot180 →
    ∃ t, exec (.drawpx 0 0 true) s = .next t ∧ getPixel t.fb 127 63 = true ∧
      Memory.read t.fb 1023 = Memory.read s.fb 1023 ||| 0x80#8)

/-! ### The Rasterizer -/

/-- The bytes TESTPAT leaves, per orientation, whatever FB held: under NORMAL and ROT180 all 1024, under ROT90 and ROT270
the left half with inverted parity, the right half unchanged; no other state changes. Derived: R141 is decision D17, R142
is marked derived, and ROT270 is the printed formula (log 11). -/
def Obligations.TestPatternBytes : Prop :=
  ∀ s : State, ∃ m, exec .testpat s = .next { s with fb := m } ∧ ∀ a : FbIndex,
    Memory.read m a =
      if s.orient = .normal ∨ s.orient = .rot180 then
        (if (a.val % 128 / 8 + a.val / 128) % 2 = 0 then 0xFF else 0x00)
      else if a.val % 128 ≤ 63 then
        (if (a.val % 128 / 8 + a.val / 128) % 2 = 1 then 0xFF else 0x00)
      else Memory.read s.fb a

/-- A physical pixel that DRAWCH's glyph covers: it is the image of a logical point in the `scale × scale` block of a set
bit (column c, row r) of the glyph of index `i`, rows 0 to 7. -/
def Sys2Proof.Spec.GlyphCovers (s : State) (i : Fin 95) (x y : Int) (scale : Byte) (px py : Int) : Prop :=
  ∃ (c : Fin 5) (r : Nat) (lx ly : Int), r < 8 ∧ s.font[i][c].getLsbD r = true ∧
    x + (c.val : Int) * scale.toNat ≤ lx ∧ lx < x + (c.val : Int) * scale.toNat + scale.toNat ∧
    y + (r : Int) * scale.toNat ≤ ly ∧ ly < y + (r : Int) * scale.toNat + scale.toNat ∧
    transform fbcoreParams s.orient lx ly = (px, py)

/-- DRAWCH gives every pixel its glyph covers the value `on`, leaves every other pixel (the background is transparent),
and changes nothing but FB. Derived: decisions D7, D13, D14, D16, D26. -/
def Obligations.DrawchPaintsItsGlyph : Prop :=
  ∀ (x y : Int) (code : Byte) (on : Bool) (scale : Byte) (s : State) (i : Fin 95),
    (i.val = if 32 ≤ code.toNat ∧ code.toNat ≤ 126 then code.toNat - 32 else 31) →
    ∃ m, exec (.drawch x y code on scale) s = .next { s with fb := m } ∧
      ∀ px py : Int, InRange px py →
        (Sys2Proof.Spec.GlyphCovers s i x y scale px py → getPixel m px py = on) ∧
        (¬ Sys2Proof.Spec.GlyphCovers s i x y scale px py → getPixel m px py = getPixel s.fb px py)

/-- The substitution: a code outside 32..126 draws what `?` (63, index 31) draws, in DRAWCH and at any place of a
DRAWTXT string; a code in 32..126 has index code - 32 (43_rasterizer.md R145). -/
def Obligations.UnsupportedCodesDrawQuestionMark : Prop :=
  (∀ code : Byte, (glyphIndex code).val =
    if 32 ≤ code.toNat ∧ code.toNat ≤ 126 then code.toNat - 32 else 31) ∧
  (∀ (x y : Int) (code : Byte) (on : Bool) (scale : Byte) (s : State),
    ¬ (32 ≤ code.toNat ∧ code.toNat ≤ 126) →
      exec (.drawch x y code on scale) s = exec (.drawch x y 63 on scale) s) ∧
  (∀ (x y : Int) (text : List Byte) (on : Bool) (scale : Byte) (s : State),
    exec (.drawtxt x y text on scale) s =
      exec (.drawtxt x y (text.map fun code => if 32 ≤ code.toNat ∧ code.toNat ≤ 126 then code else 63) on scale) s)

/-- With `scale = 0` DRAWCH and DRAWTXT paint nothing: the state stays. Derived: decision D7. -/
def Obligations.ScaleZeroPaintsNothing : Prop :=
  (∀ (x y : Int) (code : Byte) (on : Bool) (s : State), exec (.drawch x y code on 0) s = .next s) ∧
  (∀ (x y : Int) (text : List Byte) (on : Bool) (s : State), exec (.drawtxt x y text on 0) s = .next s)

/-- DRAWCH leaves every pixel whose logical point lies outside columns x..x+5s-1, rows y..y+8s-1. Derived: R148 is marked
derived. -/
def Obligations.GlyphStaysInItsBox : Prop :=
  ∀ (x y : Int) (code : Byte) (on : Bool) (scale : Byte) (s : State),
    ∃ t, exec (.drawch x y code on scale) s = .next t ∧
      ∀ lx ly px py : Int, InRange px py → transform fbcoreParams s.orient lx ly = (px, py) →
        (lx < x ∨ x + 5 * scale.toNat ≤ lx ∨ ly < y ∨ y + 8 * scale.toNat ≤ ly) →
        getPixel t.fb px py = getPixel s.fb px py

/-- The variables of DRAWTXT's loop: the cursor, whether the command has stopped, the machine. -/
structure Sys2Proof.Spec.TextLoop where
  cx      : Int
  cy      : Int
  stopped : Bool
  machine : State

/-- One pass of DRAWTXT's loop body for the character `code`, as the pseudocode has it: the wrap test, the stop test,
`DrawChar` by a DRAWCH command, the advance. -/
def Sys2Proof.Spec.TextLoop.body (lw lh x : Int) (on : Bool) (scale : Byte) (v : Sys2Proof.Spec.TextLoop) (code : Byte) :
    Sys2Proof.Spec.TextLoop :=
  if v.stopped then v
  else
    let wraps := decide (v.cx > lw - 6 * scale.toNat)
    let cx := if wraps then x else v.cx
    let cy := if wraps then v.cy + 8 * scale.toNat else v.cy
    if cy > lh - 8 * scale.toNat then { v with cx := cx, cy := cy, stopped := true }
    else
      { cx := cx + 6 * scale.toNat
        cy := cy
        stopped := false
        machine := match exec (.drawch cx cy code on scale) v.machine with
          | .next t => t
          | _ => v.machine }

/-- DRAWTXT is the loop of its pseudocode over the string, from the cursor (x, y), with the logical extents 128 × 64 for
NORMAL and ROT180 and 64 × 128 for ROT90 and ROT270, each drawn character a DRAWCH. Derived: the pseudocode's order of
tests is decision D18, its wrap column D19 (log 10). -/
def Obligations.DrawtxtRunsItsPseudocode : Prop :=
  ∀ (x y : Int) (text : List Byte) (on : Bool) (scale : Byte) (s : State) (lw lh : Int),
    (s.orient = .normal ∨ s.orient = .rot180 → lw = 128 ∧ lh = 64) →
    (s.orient = .rot90 ∨ s.orient = .rot270 → lw = 64 ∧ lh = 128) →
    exec (.drawtxt x y text on scale) s =
      .next (text.foldl (Sys2Proof.Spec.TextLoop.body lw lh x on scale)
        { cx := x, cy := y, stopped := false, machine := s }).machine

/-- What DRAWTXT draws from the origin: the first `n` characters in order, none skipped, `LW div (6*scale)` to a line on at
most `LH div (8*scale)` lines, character k at column `6*scale*(k mod perLine)`, row `8*scale*(k div perLine)`. Derived:
R155 is marked derived, and rests on decisions D18, D19 (log 10). -/
def Obligations.TextCapacityFromTheOrigin : Prop :=
  ∀ (o : Orientation) (text : List Byte) (scale : Byte) (perLine lines n : Nat), scale ≠ 0 →
    (perLine : Int) = logicalWidth o / (6 * scale.toNat) →
    (lines : Int) = logicalHeight o / (8 * scale.toNat) →
    n = min text.length (perLine * lines) →
    (textCells fbcoreParams o 0 0 text scale).length = n ∧
    (textCells fbcoreParams o 0 0 text scale).map TextCell.code = text.take n ∧
    ∀ k : Nat, k < n → ((textCells fbcoreParams o 0 0 text scale)[k]?).map (fun t => (t.cx, t.cy)) =
      some (6 * (scale.toNat : Int) * (k % perLine : Nat), 8 * (scale.toNat : Int) * (k / perLine : Nat))

/-- The stop policy: DRAWTXT draws a prefix of its string; once it has stopped, the characters after it are not looked
at, whatever they are, and nothing but FB changes (43_rasterizer.md R152). -/
def Obligations.TextStopsAndDoesNotSkip : Prop :=
  ∀ (x y : Int) (text : List Byte) (on : Bool) (scale : Byte) (s : State),
    (∃ m, exec (.drawtxt x y text on scale) s = .next { s with fb := m }) ∧
    (textCells fbcoreParams s.orient x y text scale).map TextCell.code =
      text.take (textCells fbcoreParams s.orient x y text scale).length ∧
    ((textCells fbcoreParams s.orient x y text scale).length < text.length → ∀ rest : List Byte,
      exec (.drawtxt x y (text.take (textCells fbcoreParams s.orient x y text scale).length) on scale) s =
        exec (.drawtxt x y text on scale) s ∧
      exec (.drawtxt x y (text ++ rest) on scale) s = exec (.drawtxt x y text on scale) s)

/-- Where the starting cursor passes both tests, and the wrap column is the operand x or x is 0, the readings the spec
decided between (`TEXT_CHECK_ORDER`, `TEXT_WRAP_COLUMN`) draw the same characters at the same cursors. Derived: decisions
D18, D19, log 10. -/
def Obligations.TextReadingsAgreeWhereTheStartFits : Prop :=
  ∀ (p : Params) (o : Orientation) (x y : Int) (text : List Byte) (scale : Byte),
    x ≤ logicalWidth o - 6 * scale.toNat → y ≤ logicalHeight o - 8 * scale.toNat →
    (p.textWrapColumn = .origin ∨ x = 0) →
    textCells p o x y text scale = textCells fbcoreParams o x y text scale

/-- Nothing a command paints depends on what FB already holds: from two states with the same orientation and font that
differ in FB, every pixel ends equal in both or keeps its own value in both. Derived: read from R140's "It never reads
FB". -/
def Obligations.PaintingIgnoresOldContents : Prop :=
  ∀ (i : Instr) (s s' : State), s.orient = s'.orient → s.font = s'.font →
    ∃ t t', exec i s = .next t ∧ exec i s' = .next t' ∧
      ∀ px py : Int, InRange px py →
        getPixel t.fb px py = getPixel t'.fb px py ∨
        (getPixel t.fb px py = getPixel s.fb px py ∧ getPixel t'.fb px py = getPixel s'.fb px py)

/-- Every command but SNAP is idempotent: run twice in succession it leaves the state the first run left. Derived: R47
marks it derived. -/
def Obligations.CommandsAreIdempotent : Prop :=
  ∀ (i : Instr) (s : State), i ≠ .snap →
    ∃ t u, exec i s = .next t ∧ exec i t = .next u ∧ u = { t with fb := u.fb } ∧
      ∀ a, Memory.read u.fb a = Memory.read t.fb a

/-- The work of a command is bounded: TESTPAT makes exactly 8192 pixel requests, DRAWCH at most 40*scale*scale, DRAWTXT
draws at most `len` characters. Derived: R75 is marked derived. -/
def Obligations.WorkOfACommandIsBounded : Prop :=
  testPatternReqs.length = 8192 ∧
  (∀ (font : FontRom) (x y : Int) (code : Byte) (on : Bool) (scale : Byte),
    (charReqs font x y code on scale).length ≤ 40 * scale.toNat * scale.toNat) ∧
  (∀ (p : Params) (o : Orientation) (x y : Int) (text : List Byte) (scale : Byte),
    (textCells p o x y text scale).length ≤ text.length)

/-- A value in -34743..34807, hence in 17-bit two's complement (20_memory.md R52). -/
def Sys2Proof.Spec.Fits (v : Int) : Prop := -34743 ≤ v ∧ v ≤ 34807

/-- A pixel request whose logical point and its physical image fit. -/
structure Sys2Proof.Spec.RequestFits (o : Orientation) (r : PixelReq) : Prop where
  lx : Sys2Proof.Spec.Fits r.lx
  ly : Sys2Proof.Spec.Fits r.ly
  px : Sys2Proof.Spec.Fits (transform fbcoreParams o r.lx r.ly).1
  py : Sys2Proof.Spec.Fits (transform fbcoreParams o r.lx r.ly).2

/-- A text cursor at which a character is drawn, that fits before and after either advance. -/
structure Sys2Proof.Spec.CursorFits (scale : Byte) (t : TextCell) : Prop where
  cx     : Sys2Proof.Spec.Fits t.cx
  cy     : Sys2Proof.Spec.Fits t.cy
  nextCx : Sys2Proof.Spec.Fits (t.cx + 6 * scale.toNat)
  nextCy : Sys2Proof.Spec.Fits (t.cy + 8 * scale.toNat)

/-- Seventeen bits suffice. With operands the encoding can hold, these lie in -34743..34807: every logical coordinate a
command draws at, every physical coordinate it maps to, the limits `LW - 6*scale` and `LH - 8*scale`, the starting cursor
and its sums `x + 6*scale`, `y + 8*scale`, and every cursor a character is drawn at with its sums `cx + 6*scale`,
`cy + 8*scale`. The top, 34807, is reached by `y + 8*scale`. Derived: R52 is marked derived and decision D6. -/
def Obligations.SeventeenBitsSuffice : Prop :=
  (∀ (o : Orientation) (x y : Int), coordOk x = true → coordOk y = true →
    (∀ on, Sys2Proof.Spec.RequestFits o ⟨x, y, on⟩) ∧
    (∀ (font : FontRom) (code : Byte) (on : Bool) (scale : Byte),
      ∀ r ∈ charReqs font x y code on scale, Sys2Proof.Spec.RequestFits o r) ∧
    (∀ (font : FontRom) (text : List Byte) (on : Bool) (scale : Byte),
      ∀ r ∈ textReqs fbcoreParams font o x y text on scale, Sys2Proof.Spec.RequestFits o r) ∧
    (∀ r ∈ testPatternReqs, Sys2Proof.Spec.RequestFits o r) ∧
    (∀ scale : Byte,
      Sys2Proof.Spec.Fits (logicalWidth o - 6 * scale.toNat) ∧ Sys2Proof.Spec.Fits (logicalHeight o - 8 * scale.toNat) ∧
      Sys2Proof.Spec.Fits (x + 6 * scale.toNat) ∧ Sys2Proof.Spec.Fits (y + 8 * scale.toNat) ∧
      ∀ text : List Byte, ∀ t ∈ textCells fbcoreParams o x y text scale, Sys2Proof.Spec.CursorFits scale t)) ∧
  (∃ (y : Int) (scale : Byte), coordOk y = true ∧ y + 8 * (scale.toNat : Int) = 34807)

/-- CLEAR and SETORIENT may come in either order, and after both the bytes of FB and ORIENT are the same whatever they
were. Derived: decision D40. -/
def Obligations.BootCommandsDefineTheState : Prop :=
  ∀ (o : Orientation) (s s' : State),
    ∃ t u t' u', exec .clear s = .next t ∧ exec (.setorient o) t = .next u ∧
      exec (.setorient o) s' = .next t' ∧ exec .clear t' = .next u' ∧
      u.orient = u'.orient ∧ ∀ a, Memory.read u.fb a = Memory.read u'.fb a
end

