-- ==== Sys2Proof/Laws/Encoding.lean ====
section
/-! SUPPORT. The fields of a header word, read from the word the encoder builds and put together again. -/

namespace Sys2Proof

/-- The reserved field of a header word, bits 55:49 (30_encoding.md R61). -/
def rsvField (w : Word) : BitVec 7 := w.extractLsb' 49 7

/-- A word from its seven fields. -/
def wordOfFields (op : Byte) (rsv : BitVec 7) (on : BitVec 1) (scale arg : Byte) (x y : BitVec 16) : Word :=
  op ++ rsv ++ on ++ scale ++ arg ++ x ++ y

theorem headerWord_eq (c : Opcode) (on : Bool) (scale arg : Byte) (x y : Int) :
    headerWord c on scale arg x y =
      wordOfFields c.toByte 0 (BitVec.ofBool on) scale arg (BitVec.ofInt 16 x) (BitVec.ofInt 16 y) := rfl

section Fields

variable (op : Byte) (rsv : BitVec 7) (on : BitVec 1) (scale arg : Byte) (x y : BitVec 16)

/-- The field a bit of a word belongs to. -/
theorem getLsbD_wordOfFields (i : Nat) : (wordOfFields op rsv on scale arg x y).getLsbD i =
    if i < 16 then y.getLsbD i
    else if i < 32 then x.getLsbD (i - 16)
    else if i < 40 then arg.getLsbD (i - 32)
    else if i < 48 then scale.getLsbD (i - 40)
    else if i < 49 then on.getLsbD (i - 48)
    else if i < 56 then rsv.getLsbD (i - 49)
    else op.getLsbD (i - 56) := by
  unfold wordOfFields
  simp only [BitVec.getLsbD_append, Nat.sub_sub]
  grind

@[simp] theorem opField_wordOfFields : opField (wordOfFields op rsv on scale arg x y) = op := by
  apply BitVec.eq_of_getLsbD_eq
  intro i hi
  simp only [opField, BitVec.getLsbD_extractLsb', getLsbD_wordOfFields]
  grind

@[simp] theorem rsvField_wordOfFields : rsvField (wordOfFields op rsv on scale arg x y) = rsv := by
  apply BitVec.eq_of_getLsbD_eq
  intro i hi
  simp only [rsvField, BitVec.getLsbD_extractLsb', getLsbD_wordOfFields]
  grind

@[simp] theorem onField_wordOfFields : onField (wordOfFields op rsv on scale arg x y) = on.getLsbD 0 := by
  simp only [onField, getLsbD_wordOfFields]
  grind

@[simp] theorem scaleField_wordOfFields : scaleField (wordOfFields op rsv on scale arg x y) = scale := by
  apply BitVec.eq_of_getLsbD_eq
  intro i hi
  simp only [scaleField, BitVec.getLsbD_extractLsb', getLsbD_wordOfFields]
  grind

@[simp] theorem argField_wordOfFields : argField (wordOfFields op rsv on scale arg x y) = arg := by
  apply BitVec.eq_of_getLsbD_eq
  intro i hi
  simp only [argField, BitVec.getLsbD_extractLsb', getLsbD_wordOfFields]
  grind

@[simp] theorem xField_wordOfFields : xField (wordOfFields op rsv on scale arg x y) = x.toInt := by
  unfold xField
  congr 1
  apply BitVec.eq_of_getLsbD_eq
  intro i hi
  simp only [BitVec.getLsbD_extractLsb', getLsbD_wordOfFields]
  grind

@[simp] theorem yField_wordOfFields : yField (wordOfFields op rsv on scale arg x y) = y.toInt := by
  unfold yField
  congr 1
  apply BitVec.eq_of_getLsbD_eq
  intro i hi
  simp only [BitVec.getLsbD_extractLsb', getLsbD_wordOfFields]
  grind

theorem and_wordOfFields (op' : Byte) (rsv' : BitVec 7) (on' : BitVec 1) (scale' arg' : Byte) (x' y' : BitVec 16) :
    wordOfFields op rsv on scale arg x y &&& wordOfFields op' rsv' on' scale' arg' x' y' =
      wordOfFields (op &&& op') (rsv &&& rsv') (on &&& on') (scale &&& scale') (arg &&& arg') (x &&& x') (y &&& y') := by
  apply BitVec.eq_of_getLsbD_eq
  intro i hi
  simp only [BitVec.getLsbD_and, getLsbD_wordOfFields]
  grind

theorem wordOfFields_inj {op' : Byte} {rsv' : BitVec 7} {on' : BitVec 1} {scale' arg' : Byte} {x' y' : BitVec 16} :
    wordOfFields op rsv on scale arg x y = wordOfFields op' rsv' on' scale' arg' x' y' ↔
      op = op' ∧ rsv = rsv' ∧ on = on' ∧ scale = scale' ∧ arg = arg' ∧ x = x' ∧ y = y' := by
  constructor
  · intro h
    refine ⟨?_, ?_, ?_, ?_, ?_, ?_, ?_⟩
    · simpa using congrArg opField h
    · simpa using congrArg rsvField h
    · have := congrArg onField h
      simp only [onField_wordOfFields] at this
      apply BitVec.eq_of_getLsbD_eq
      intro i hi
      obtain rfl : i = 0 := by omega
      exact this
    · simpa using congrArg scaleField h
    · simpa using congrArg argField h
    · exact BitVec.eq_of_toInt_eq (by simpa using congrArg xField h)
    · exact BitVec.eq_of_toInt_eq (by simpa using congrArg yField h)
  · rintro ⟨rfl, rfl, rfl, rfl, rfl, rfl, rfl⟩
    rfl

end Fields

/-- Every word is the word of its fields. -/
theorem exists_wordOfFields (w : Word) :
    ∃ op rsv on scale arg x y, w = wordOfFields op rsv on scale arg x y := by
  refine ⟨w.extractLsb' 56 8, w.extractLsb' 49 7, w.extractLsb' 48 1, w.extractLsb' 40 8, w.extractLsb' 32 8,
    w.extractLsb' 16 16, w.extractLsb' 0 16, ?_⟩
  apply BitVec.eq_of_getLsbD_eq
  intro i hi
  simp only [BitVec.getLsbD_extractLsb', getLsbD_wordOfFields]
  grind

/-- A mask of the opcode table, field by field (30_encoding.md R68). -/
theorem maskBits_eq (c : Opcode) : c.maskBits =
    match c with
    | .clear => wordOfFields 0xFF 0x7F 1 0xFF 0xFF 0xFFFF 0xFFFF
    | .setorient => wordOfFields 0xFF 0x7F 1 0xFF 0xFC 0xFFFF 0xFFFF
    | .pset => wordOfFields 0xFF 0x7F 0 0xFF 0xFF 0 0
    | .drawpx => wordOfFields 0xFF 0x7F 0 0xFF 0xFF 0 0
    | .testpat => wordOfFields 0xFF 0x7F 1 0xFF 0xFF 0xFFFF 0xFFFF
    | .drawch => wordOfFields 0xFF 0x7F 0 0 0 0 0
    | .drawtxt => wordOfFields 0xFF 0x7F 0 0 0 0 0
    | .snap => wordOfFields 0xFF 0x7F 1 0xFF 0xFF 0xFFFF 0xFFFF := by
  cases c <;> decide

/-- A match value of the opcode table, field by field (30_encoding.md R68). -/
theorem matchBits_eq (c : Opcode) : c.matchBits = wordOfFields c.toByte 0 0 0 0 0 0 := by
  cases c <;> decide

/-- The byte of an opcode names it and nothing else does (30_encoding.md R67). -/
theorem Opcode.ofByte_eq_some {b : Byte} {c : Opcode} : Opcode.ofByte b = some c ↔ b = c.toByte := by
  cases c <;> revert b <;> decide

end Sys2Proof
end

