-- ==== Sys2Proof/Laws/Memory.lean ====
section
/-! SUPPORT. The laws of the Framebuffer's bytes: read after write, the canonical form, equality by reading. -/

namespace Sys2Proof.Machine

namespace Memory

/-! ### Reading after one cell is taken out or put in -/

theorem lookup_erase (m : Memory) (a b : Nat) :
    lookup (erase m a) b = if b = a then blankByte else lookup m b := by
  induction m with
  | nil => simp [erase, lookup]
  | cons c rest ih =>
    obtain ⟨k, v⟩ := c
    by_cases hk : k = a
    · subst hk
      have h : erase ((k, v) :: rest) k = erase rest k := by simp [erase]
      rw [h, ih]
      by_cases hb : b = k
      · simp [hb]
      · simp [hb, lookup, Ne.symm hb]
    · have h : erase ((k, v) :: rest) a = (k, v) :: erase rest a := by simp [erase, hk]
      rw [h, lookup, lookup, ih]
      by_cases hb : b = a
      · subst hb; simp [hk]
      · simp [hb]

theorem lookup_insert (m : Memory) (a b : Nat) (v : Byte) (h : ∀ c ∈ m, c.1 ≠ a) :
    lookup (insert a v m) b = if b = a then v else lookup m b := by
  induction m with
  | nil => simp [insert, lookup, eq_comm]
  | cons c rest ih =>
    obtain ⟨k, w⟩ := c
    have hk : k ≠ a := h (k, w) (by simp)
    have ih := ih fun c hc => h c (by simp [hc])
    unfold insert
    by_cases hlt : a < k
    · simp only [hlt, if_true, lookup]
      by_cases hb : b = a
      · simp [hb]
      · simp [hb, Ne.symm hb]
    · simp only [hlt, if_false, lookup, ih]
      by_cases hb : b = a
      · subst hb; simp [hk]
      · simp [hb]

theorem ne_of_mem_erase (m : Memory) (a : Nat) : ∀ c ∈ erase m a, c.1 ≠ a := by
  intro c hc
  simpa using (List.mem_filter.mp hc).2

/-! ### MemRead and MemWrite -/

/-- Everything a write does to what is read afterwards, on any list of cells. -/
theorem read_write (m : Memory) (a b : FbIndex) (v : Byte) :
    read (write m a v) b = if b = a then v else read m b := by
  unfold read write
  by_cases hv : v = blankByte
  · simp [hv, lookup_erase, Fin.ext_iff]
  · rw [if_neg hv, lookup_insert _ _ _ _ (ne_of_mem_erase m a), lookup_erase]
    by_cases hb : b = a
    · simp [hb]
    · simp [hb, Fin.ext_iff.not.mp hb]

@[simp] theorem read_write_same (m : Memory) (a : FbIndex) (v : Byte) : read (write m a v) a = v := by
  simp [read_write]

theorem read_write_other (m : Memory) {a b : FbIndex} (v : Byte) (h : b ≠ a) : read (write m a v) b = read m b := by
  simp [read_write, h]

@[simp] theorem read_nil (a : FbIndex) : read [] a = blankByte := rfl

/-- A fold that writes a value to each of a list of addresses. -/
theorem read_foldl_write (f : FbIndex → Byte) (l : List FbIndex) (m : Memory) (b : FbIndex) :
    read (l.foldl (fun m a => write m a (f a)) m) b = if b ∈ l then f b else read m b := by
  induction l generalizing m with
  | nil => simp
  | cons a l ih =>
    rw [List.foldl_cons, ih, read_write]
    by_cases hb : b = a
    · subst hb; simp
    · simp [hb]

theorem indicesFrom_length (start n : Nat) : (indicesFrom start n).length = n := by
  induction n generalizing start with
  | zero => rfl
  | succ n ih => rw [indicesFrom, List.length_cons, ih]

theorem indicesFrom_getElem? (start n k : Nat) (h : k < n) :
    (indicesFrom start n)[k]? = some (Fin.ofNat 1024 (start + k)) := by
  induction n generalizing start k with
  | zero => omega
  | succ n ih =>
    rw [indicesFrom]
    cases k with
    | zero => rfl
    | succ k =>
      rw [List.getElem?_cons_succ, ih (start + 1) k (by omega)]
      congr 2
      omega

@[simp] theorem allIndices_length : allIndices.length = 1024 := indicesFrom_length 0 1024

theorem allIndices_getElem? (a : FbIndex) : allIndices[a.val]? = some a := by
  rw [allIndices, indicesFrom_getElem? 0 1024 a.val a.isLt]
  congr 1
  apply Fin.ext
  rw [Fin.val_ofNat, Nat.zero_add, Nat.mod_eq_of_lt a.isLt]

theorem mem_allIndices (a : FbIndex) : a ∈ allIndices := List.mem_of_getElem? (allIndices_getElem? a)

@[simp] theorem read_zeroAll (m : Memory) (a : FbIndex) : read (zeroAll m) a = 0 := by
  rw [zeroAll, read_foldl_write (fun _ => 0x00), if_pos (mem_allIndices a)]

@[simp] theorem read_ofBytes (b : Vector Byte 1024) (a : FbIndex) : read (ofBytes b) a = b[a] := by
  rw [ofBytes, read_foldl_write (fun a => b[a]), if_pos (mem_allIndices a)]

@[simp] theorem bytes_length (m : Memory) : (bytes m).length = 1024 := by
  rw [bytes, List.length_map, allIndices_length]

theorem bytes_getElem? (m : Memory) (a : FbIndex) : (bytes m)[a.val]? = some (read m a) := by
  rw [bytes, List.getElem?_map, allIndices_getElem?, Option.map_some]

/-! ### The canonical form -/

theorem wfFrom_mono {lo lo' : Nat} {m : Memory} (h : wfFrom lo m = true) (hle : lo' ≤ lo) : wfFrom lo' m = true := by
  cases m with
  | nil => rfl
  | cons c rest =>
    obtain ⟨k, v⟩ := c
    simp only [wfFrom, Bool.and_eq_true, decide_eq_true_eq] at h ⊢
    exact ⟨⟨⟨by omega, h.1.1.2⟩, h.1.2⟩, h.2⟩

theorem wfFrom_erase {lo : Nat} {m : Memory} (a : Nat) (h : wfFrom lo m = true) : wfFrom lo (erase m a) = true := by
  induction m generalizing lo with
  | nil => rfl
  | cons c rest ih =>
    obtain ⟨k, v⟩ := c
    simp only [wfFrom, Bool.and_eq_true, decide_eq_true_eq] at h
    by_cases hk : k = a
    · have he : erase ((k, v) :: rest) a = erase rest a := by simp [erase, hk]
      rw [he]
      exact wfFrom_mono (ih h.2) (by omega)
    · have he : erase ((k, v) :: rest) a = (k, v) :: erase rest a := by simp [erase, hk]
      rw [he]
      simp only [wfFrom, Bool.and_eq_true, decide_eq_true_eq]
      exact ⟨h.1, ih h.2⟩

theorem wfFrom_insert {lo : Nat} {m : Memory} {a : Nat} {v : Byte} (h : wfFrom lo m = true) (hlo : lo ≤ a)
    (ha : a < 1024) (hv : v ≠ blankByte) (hm : ∀ c ∈ m, c.1 ≠ a) : wfFrom lo (insert a v m) = true := by
  induction m generalizing lo with
  | nil => simp [insert, wfFrom, hlo, ha, hv]
  | cons c rest ih =>
    obtain ⟨k, w⟩ := c
    have hk : k ≠ a := hm (k, w) (by simp)
    unfold insert
    by_cases hlt : a < k
    · rw [if_pos hlt]
      rw [wfFrom] at h ⊢
      simp only [wfFrom, Bool.and_eq_true, decide_eq_true_eq] at h ⊢
      exact ⟨⟨⟨hlo, ha⟩, hv⟩, ⟨⟨by omega, h.1.1.2⟩, h.1.2⟩, h.2⟩
    · rw [if_neg hlt]
      simp only [wfFrom, Bool.and_eq_true, decide_eq_true_eq] at h ⊢
      exact ⟨h.1, ih h.2 (by omega) fun c hc => hm c (by simp [hc])⟩

/-- A write keeps the canonical form. -/
theorem wf_write {m : Memory} (a : FbIndex) (v : Byte) (h : wf m = true) : wf (write m a v) = true := by
  unfold write wf
  by_cases hv : v = blankByte
  · rw [if_pos hv]; exact wfFrom_erase a h
  · rw [if_neg hv]
    exact wfFrom_insert (wfFrom_erase a h) (Nat.zero_le _) a.isLt hv (ne_of_mem_erase m a)

theorem wf_foldl_write (f : FbIndex → Byte) (l : List FbIndex) {m : Memory} (h : wf m = true) :
    wf (l.foldl (fun m a => write m a (f a)) m) = true := by
  induction l generalizing m with
  | nil => exact h
  | cons a l ih => exact ih (wf_write a (f a) h)

theorem wf_nil : wf [] = true := rfl

theorem wf_zeroAll {m : Memory} (h : wf m = true) : wf (zeroAll m) = true := wf_foldl_write (fun _ => 0x00) _ h

theorem wf_ofBytes (b : Vector Byte 1024) : wf (ofBytes b) = true := by
  rw [ofBytes]
  exact wf_foldl_write (fun a => b[a]) allIndices wf_nil

/-- Below the lower bound nothing is listed. -/
theorem lookup_of_lt {lo : Nat} {m : Memory} (h : wfFrom lo m = true) {a : Nat} (ha : a < lo) :
    lookup m a = blankByte := by
  induction m generalizing lo with
  | nil => rfl
  | cons c rest ih =>
    obtain ⟨k, v⟩ := c
    simp only [wfFrom, Bool.and_eq_true, decide_eq_true_eq] at h
    rw [lookup, if_neg (by omega)]
    exact ih h.2 (by omega)

/-- Outside 0..1023 nothing is listed. -/
theorem lookup_of_ge {lo : Nat} {m : Memory} (h : wfFrom lo m = true) {a : Nat} (ha : 1024 ≤ a) :
    lookup m a = blankByte := by
  induction m generalizing lo with
  | nil => rfl
  | cons c rest ih =>
    obtain ⟨k, v⟩ := c
    simp only [wfFrom, Bool.and_eq_true, decide_eq_true_eq] at h
    rw [lookup, if_neg (by omega)]
    exact ih h.2

/-- Two canonical lists of cells that read alike are the same list. -/
theorem eq_of_lookup_eq {lo : Nat} {m m' : Memory} (h : wfFrom lo m = true) (h' : wfFrom lo m' = true)
    (heq : ∀ a, lookup m a = lookup m' a) : m = m' := by
  induction m generalizing lo m' with
  | nil =>
    cases m' with
    | nil => rfl
    | cons c rest =>
      obtain ⟨k, v⟩ := c
      simp only [wfFrom, Bool.and_eq_true, decide_eq_true_eq] at h'
      have := heq k
      simp only [lookup, if_true] at this
      exact absurd this.symm h'.1.2
  | cons c rest ih =>
    obtain ⟨k, v⟩ := c
    cases m' with
    | nil =>
      simp only [wfFrom, Bool.and_eq_true, decide_eq_true_eq] at h
      have := heq k
      simp only [lookup, if_true] at this
      exact absurd this h.1.2
    | cons c' rest' =>
      obtain ⟨k', v'⟩ := c'
      simp only [wfFrom, Bool.and_eq_true, decide_eq_true_eq] at h h'
      have hk : k = k' := by
        rcases Nat.lt_trichotomy k k' with hlt | he | hgt
        · have e := heq k
          rw [lookup, if_pos rfl, lookup, if_neg (by omega), lookup_of_lt h'.2 (by omega)] at e
          exact absurd e h.1.2
        · exact he
        · have e := heq k'
          rw [lookup, if_neg (by omega), lookup_of_lt h.2 (by omega), lookup, if_pos rfl] at e
          exact absurd e.symm h'.1.2
      subst hk
      have hv : v = v' := by simpa [lookup] using heq k
      subst hv
      have hrest : rest = rest' := ih h.2 h'.2 fun a => by
        by_cases ha : k = a
        · subst ha
          rw [lookup_of_lt h.2 (Nat.lt_succ_self _), lookup_of_lt h'.2 (Nat.lt_succ_self _)]
        · simpa [lookup, ha] using heq a
      rw [hrest]

/-- Two canonical Framebuffers whose 1024 bytes agree are equal data. -/
theorem eq_of_read_eq {m m' : Memory} (h : wf m = true) (h' : wf m' = true) (heq : ∀ a, read m a = read m' a) :
    m = m' := by
  refine eq_of_lookup_eq h h' fun a => ?_
  by_cases ha : a < 1024
  · exact heq ⟨a, ha⟩
  · rw [lookup_of_ge h (by omega), lookup_of_ge h' (by omega)]

end Memory

end Sys2Proof.Machine
end

