-- ==== Sys2Proof/Laws/PerInstr.lean ====
section
/-! SUPPORT. One fact about every instruction as syntax: how many words its encoding has (30_encoding.md R60). -/

namespace Sys2Proof.Laws.EncodedLength

/-- The encoding has one word, and for DRAWTXT one payload word more for every eight characters begun. -/
def Statement (i : Instr) : Prop :=
  (encode i).length = match i with
    | .drawtxt _ _ text _ _ => 1 + (text.length + 7) / 8
    | _ => 1

theorem clear : Statement .clear := rfl
theorem setorient (o : Orientation) : Statement (.setorient o) := rfl
theorem pset (x y : Int) (on : Bool) : Statement (.pset x y on) := rfl
theorem drawpx (x y : Int) (on : Bool) : Statement (.drawpx x y on) := rfl
theorem testpat : Statement .testpat := rfl
theorem drawch (x y : Int) (code : Byte) (on : Bool) (scale : Byte) : Statement (.drawch x y code on scale) := rfl
theorem drawtxt (x y : Int) (text : List Byte) (on : Bool) (scale : Byte) :
    Statement (.drawtxt x y text on scale) := by
  simp [Statement, encode, packText, payloadCount, Nat.add_comm]
theorem snap : Statement .snap := rfl

end Sys2Proof.Laws.EncodedLength
end

