-- ==== Sys2Proof/Laws/Pixels.lean ====
section
/-! SUPPORT. What the pixel writes do, pixel by pixel and byte by byte. -/

namespace Sys2Proof.Machine

/-! ### The pixel address -/

theorem byteIndex_val {px py : Int} (h : InRange px py) :
    (byteIndex px py).val = px.toNat + py.toNat / 8 * 128 := by
  unfold byteIndex
  rw [Fin.val_ofNat]
  omega

theorem bitIndex_lt (py : Int) : bitIndex py < 8 := Nat.mod_lt _ (by decide)

/-- Different pixels have different bits (20_memory.md R41). -/
theorem pixel_inj {px py qx qy : Int} (hp : InRange px py) (hq : InRange qx qy)
    (hb : byteIndex px py = byteIndex qx qy) (hk : bitIndex py = bitIndex qy) : px = qx ∧ py = qy := by
  have hv := congrArg Fin.val hb
  rw [byteIndex_val hp, byteIndex_val hq] at hv
  unfold bitIndex at hk
  omega

/-- Every bit of the Framebuffer is a pixel (20_memory.md R41). -/
theorem pixel_surj (a : FbIndex) {k : Nat} (hk : k < 8) :
    ∃ px py : Int, InRange px py ∧ byteIndex px py = a ∧ bitIndex py = k := by
  have ha := a.isLt
  refine ⟨(a.val % 128 : Nat), (8 * (a.val / 128) + k : Nat), ?_, ?_, ?_⟩
  · omega
  · apply Fin.ext
    rw [byteIndex_val (by omega)]
    omega
  · unfold bitIndex; omega

/-! ### One bit of a byte -/

theorem getLsbD_putBit (b : Byte) (on : Bool) {k j : Nat} (hk : k < 8) (hj : j < 8) :
    (putBit b k on).getLsbD j = if j = k then on else b.getLsbD j := by
  have key : ∀ (k j : Fin 8) (on : Bool) (b : Byte),
      (putBit b k on).getLsbD j = if j.val = k.val then on else b.getLsbD j := by
    intro k j on b
    cases on
    · simp only [putBit, Bool.false_eq_true, if_false, BitVec.getLsbD_and, BitVec.getLsbD_xor]
      have : ((255#8).getLsbD j ^^ (1#8 <<< k.val).getLsbD j) = !decide (j.val = k.val) := by
        revert k j; decide
      rw [this]
      by_cases h : j.val = k.val <;> simp [h]
    · simp only [putBit, if_true, BitVec.getLsbD_or]
      have : (1#8 <<< k.val).getLsbD j = decide (j.val = k.val) := by
        revert k j; decide
      rw [this]
      by_cases h : j.val = k.val <;> simp [h]
  exact key ⟨k, hk⟩ ⟨j, hj⟩ on b

/-- Two bytes with the same eight bits are equal. -/
theorem byte_ext {b b' : Byte} (h : ∀ k, k < 8 → b.getLsbD k = b'.getLsbD k) : b = b' :=
  BitVec.eq_of_getLsbD_eq fun k hk => h k hk

/-! ### SetPixel -/

theorem setPixel_of_not_inRange (m : Memory) {px py : Int} (on : Bool) (h : ¬ InRange px py) :
    setPixel m px py on = m := if_neg h

/-- Everything `SetPixel` does to a byte. -/
theorem read_setPixel (m : Memory) (px py : Int) (on : Bool) (a : FbIndex) :
    Memory.read (setPixel m px py on) a =
      if InRange px py ∧ a = byteIndex px py then putBit (Memory.read m a) (bitIndex py) on else Memory.read m a := by
  unfold setPixel
  by_cases h : InRange px py
  · rw [if_pos h, Memory.read_write]
    by_cases ha : a = byteIndex px py
    · rw [if_pos ha, if_pos ⟨h, ha⟩, ha]
    · rw [if_neg ha, if_neg (fun c => ha c.2)]
  · rw [if_neg h, if_neg (fun c => h c.1)]

/-- Everything `SetPixel` does to a pixel. -/
theorem getPixel_setPixel (m : Memory) (px py : Int) (on : Bool) {qx qy : Int} (hq : InRange qx qy) :
    getPixel (setPixel m px py on) qx qy = if px = qx ∧ py = qy then on else getPixel m qx qy := by
  unfold getPixel
  rw [read_setPixel]
  by_cases h : InRange px py ∧ byteIndex qx qy = byteIndex px py
  · rw [if_pos h, getLsbD_putBit _ _ (bitIndex_lt _) (bitIndex_lt _)]
    by_cases hk : bitIndex qy = bitIndex py
    · have := pixel_inj hq h.1 h.2 hk
      rw [if_pos hk, if_pos ⟨this.1.symm, this.2.symm⟩]
    · rw [if_neg hk, if_neg]
      rintro ⟨rfl, rfl⟩
      exact hk rfl
  · rw [if_neg h, if_neg]
    rintro ⟨rfl, rfl⟩
    exact h ⟨hq, rfl⟩

theorem wf_setPixel {m : Memory} (px py : Int) (on : Bool) (h : Memory.wf m = true) :
    Memory.wf (setPixel m px py on) = true := by
  unfold setPixel
  split
  · exact Memory.wf_write _ _ h
  · exact h

/-- Bytes that agree pixel by pixel agree. -/
theorem read_eq_of_getPixel_eq {m m' : Memory} (h : ∀ x y, InRange x y → getPixel m x y = getPixel m' x y)
    (a : FbIndex) : Memory.read m a = Memory.read m' a := by
  refine byte_ext fun k hk => ?_
  obtain ⟨x, y, hr, ha, hb⟩ := pixel_surj a hk
  have := h x y hr
  unfold getPixel at this
  rwa [ha, hb] at this

/-! ### DrawPixel and lists of requests -/

theorem getPixel_drawPixel (p : Params) (o : Orientation) (m : Memory) (lx ly : Int) (on : Bool) {qx qy : Int}
    (hq : InRange qx qy) :
    getPixel (drawPixel p o m lx ly on) qx qy = if transform p o lx ly = (qx, qy) then on else getPixel m qx qy := by
  unfold drawPixel
  rw [getPixel_setPixel _ _ _ _ hq]
  simp only [Prod.ext_iff]

@[simp] theorem drawAll_nil (p : Params) (o : Orientation) (m : Memory) : drawAll p o m [] = m := rfl

@[simp] theorem drawAll_cons (p : Params) (o : Orientation) (m : Memory) (r : PixelReq) (rs : List PixelReq) :
    drawAll p o m (r :: rs) = drawAll p o (drawPixel p o m r.lx r.ly r.on) rs := rfl

theorem drawAll_append (p : Params) (o : Orientation) (m : Memory) (rs rs' : List PixelReq) :
    drawAll p o m (rs ++ rs') = drawAll p o (drawAll p o m rs) rs' := List.foldl_append

theorem wf_drawAll (p : Params) (o : Orientation) {m : Memory} (reqs : List PixelReq) (h : Memory.wf m = true) :
    Memory.wf (drawAll p o m reqs) = true := by
  induction reqs generalizing m with
  | nil => exact h
  | cons r rs ih => exact ih (wf_setPixel _ _ _ h)

/-- The value the last of some requests that lands on a pixel gives it, if one does. -/
def lastHit (p : Params) (o : Orientation) (qx qy : Int) (reqs : List PixelReq) : Option Bool :=
  reqs.foldl (fun v r => if transform p o r.lx r.ly = (qx, qy) then some r.on else v) none

theorem foldl_hit (p : Params) (o : Orientation) (qx qy : Int) (reqs : List PixelReq) (v : Option Bool) :
    reqs.foldl (fun v r => if transform p o r.lx r.ly = (qx, qy) then some r.on else v) v =
      (lastHit p o qx qy reqs).or v := by
  unfold lastHit
  induction reqs generalizing v with
  | nil => simp
  | cons r rs ih =>
    simp only [List.foldl_cons]
    rw [ih (if transform p o r.lx r.ly = (qx, qy) then some r.on else v),
      ih (if transform p o r.lx r.ly = (qx, qy) then some r.on else none)]
    by_cases h : transform p o r.lx r.ly = (qx, qy) <;> simp [h]

theorem lastHit_cons (p : Params) (o : Orientation) (qx qy : Int) (r : PixelReq) (rs : List PixelReq) :
    lastHit p o qx qy (r :: rs) =
      (lastHit p o qx qy rs).or (if transform p o r.lx r.ly = (qx, qy) then some r.on else none) :=
  foldl_hit p o qx qy rs _

/-- Everything a list of requests does to a pixel. -/
theorem getPixel_drawAll (p : Params) (o : Orientation) (m : Memory) (reqs : List PixelReq) {qx qy : Int}
    (hq : InRange qx qy) :
    getPixel (drawAll p o m reqs) qx qy = (lastHit p o qx qy reqs).getD (getPixel m qx qy) := by
  induction reqs generalizing m with
  | nil => rfl
  | cons r rs ih =>
    rw [drawAll_cons, ih, getPixel_drawPixel _ _ _ _ _ _ hq, lastHit_cons]
    cases lastHit p o qx qy rs <;> by_cases h : transform p o r.lx r.ly = (qx, qy) <;> simp [h]

/-- No request lands on the pixel. -/
theorem lastHit_eq_none {p : Params} {o : Orientation} {qx qy : Int} {reqs : List PixelReq}
    (h : ∀ r ∈ reqs, transform p o r.lx r.ly ≠ (qx, qy)) : lastHit p o qx qy reqs = none := by
  induction reqs with
  | nil => rfl
  | cons r rs ih =>
    rw [lastHit_cons, ih fun r' hr' => h r' (by simp [hr']), if_neg (h r (by simp))]
    rfl

/-- Some request lands on the pixel, and all that do carry the same value. -/
theorem lastHit_eq_some {p : Params} {o : Orientation} {qx qy : Int} {reqs : List PixelReq} {v : Bool}
    (hex : ∃ r ∈ reqs, transform p o r.lx r.ly = (qx, qy))
    (hall : ∀ r ∈ reqs, transform p o r.lx r.ly = (qx, qy) → r.on = v) : lastHit p o qx qy reqs = some v := by
  induction reqs with
  | nil => simp at hex
  | cons r rs ih =>
    rw [lastHit_cons]
    by_cases hrs : ∃ r' ∈ rs, transform p o r'.lx r'.ly = (qx, qy)
    · rw [ih hrs fun r' hr' => hall r' (by simp [hr'])]
      rfl
    · have hn : ∀ r' ∈ rs, transform p o r'.lx r'.ly ≠ (qx, qy) := fun r' hr' he => hrs ⟨r', hr', he⟩
      obtain ⟨r', hr', he⟩ := hex
      rcases List.mem_cons.mp hr' with rfl | hr''
      · rw [lastHit_eq_none hn, if_pos he, hall _ (by simp) he]
        rfl
      · exact absurd he (hn r' hr'')

/-- A byte no request stores to keeps its value. -/
theorem read_drawAll_of_not_stored (p : Params) (o : Orientation) (m : Memory) (reqs : List PixelReq) {a : FbIndex}
    (h : a ∉ storedBytes p o reqs) : Memory.read (drawAll p o m reqs) a = Memory.read m a := by
  induction reqs generalizing m with
  | nil => rfl
  | cons r rs ih =>
    have hs : a ∉ storedBytes p o rs := fun ha => h (by
      unfold storedBytes at ha ⊢
      rw [List.filterMap_cons]
      split
      · exact ha
      · exact List.mem_cons_of_mem _ ha)
    rw [drawAll_cons, ih _ hs]
    unfold drawPixel
    rw [read_setPixel, if_neg]
    rintro ⟨hr, rfl⟩
    refine h ?_
    unfold storedBytes
    refine List.mem_filterMap.mpr ⟨r, by simp, ?_⟩
    simp only [storedByte]
    rw [if_pos hr]

/-! ### The Rasterizer's requests -/

theorem mem_blockReqs {x y : Int} {on : Bool} {scale : Nat} {r : PixelReq} :
    r ∈ blockReqs x y on scale ↔ ∃ dy < scale, ∃ dx < scale, r = ⟨x + dx, y + dy, on⟩ := by
  simp [blockReqs, eq_comm]

theorem mem_glyphReqs {g : Vector Byte 5} {x y : Int} {on : Bool} {scale : Nat} {r : PixelReq} :
    r ∈ glyphReqs g x y on scale ↔
      ∃ c : Fin 5, ∃ row < 8, glyphBit g c row = true ∧ ∃ dy < scale, ∃ dx < scale,
        r = ⟨x + c.val * scale + dx, y + row * scale + dy, on⟩ := by
  unfold glyphReqs
  simp only [List.mem_flatMap, List.mem_finRange, true_and, List.mem_range]
  refine exists_congr fun c => exists_congr fun row => and_congr_right fun _ => ?_
  by_cases h : glyphBit g c row = true
  · simp [h, mem_blockReqs]
  · simp [h]

theorem mem_testPatternReqs {r : PixelReq} :
    r ∈ testPatternReqs ↔ ∃ y : Nat, y < 64 ∧ ∃ x : Nat, x < 128 ∧ r = ⟨(x : Int), (y : Int), decide ((x / 8 + y / 8) % 2 = 0)⟩ := by
  simp [testPatternReqs, eq_comm]

end Sys2Proof.Machine
end

