-- ==== Sys2Proof/Laws/State.lean ====
section
/-! SUPPORT. One lemma per field per update of the state, so that no later proof unfolds a record update.

Each is true by `rfl`. Those of `withFb` and `emit` are proved by a rewrite instead, so that simp does not take them for
definitional steps: the kernel would then compare the new contents (8192 pixel writes, say) with the old. -/

namespace Sys2Proof.Machine

variable (s : State)

/-! ### withFb -/

@[simp] theorem State.withFb_fb (m : Memory) : (s.withFb m).fb = m := by rw [State.withFb]
@[simp] theorem State.withFb_orient (m : Memory) : (s.withFb m).orient = s.orient := by rw [State.withFb]
@[simp] theorem State.withFb_fault (m : Memory) : (s.withFb m).fault = s.fault := by rw [State.withFb]
@[simp] theorem State.withFb_fcode (m : Memory) : (s.withFb m).fcode = s.fcode := by rw [State.withFb]
@[simp] theorem State.withFb_font (m : Memory) : (s.withFb m).font = s.font := by rw [State.withFb]
@[simp] theorem State.withFb_out (m : Memory) : (s.withFb m).out = s.out := by rw [State.withFb]
@[simp] theorem State.withFb_port (m : Memory) : (s.withFb m).port = s.port := by rw [State.withFb]
@[simp] theorem State.withFb_cp (m : Memory) : (s.withFb m).cp = s.cp := by rw [State.withFb]
@[simp] theorem State.withFb_rst (m : Memory) : (s.withFb m).rst = s.rst := by rw [State.withFb]
@[simp] theorem State.withFb_resets (m : Memory) : (s.withFb m).resets = s.resets := by rw [State.withFb]

/-! ### withOrient -/

@[simp] theorem State.withOrient_fb (o : Orientation) : (s.withOrient o).fb = s.fb := rfl
@[simp] theorem State.withOrient_orient (o : Orientation) : (s.withOrient o).orient = o := rfl
@[simp] theorem State.withOrient_fault (o : Orientation) : (s.withOrient o).fault = s.fault := rfl
@[simp] theorem State.withOrient_fcode (o : Orientation) : (s.withOrient o).fcode = s.fcode := rfl
@[simp] theorem State.withOrient_font (o : Orientation) : (s.withOrient o).font = s.font := rfl
@[simp] theorem State.withOrient_out (o : Orientation) : (s.withOrient o).out = s.out := rfl
@[simp] theorem State.withOrient_port (o : Orientation) : (s.withOrient o).port = s.port := rfl
@[simp] theorem State.withOrient_cp (o : Orientation) : (s.withOrient o).cp = s.cp := rfl
@[simp] theorem State.withOrient_rst (o : Orientation) : (s.withOrient o).rst = s.rst := rfl
@[simp] theorem State.withOrient_resets (o : Orientation) : (s.withOrient o).resets = s.resets := rfl

/-! ### emit -/

@[simp] theorem State.emit_fb (b : Snapshot) : (s.emit b).fb = s.fb := by rw [State.emit]
@[simp] theorem State.emit_orient (b : Snapshot) : (s.emit b).orient = s.orient := by rw [State.emit]
@[simp] theorem State.emit_fault (b : Snapshot) : (s.emit b).fault = s.fault := by rw [State.emit]
@[simp] theorem State.emit_fcode (b : Snapshot) : (s.emit b).fcode = s.fcode := by rw [State.emit]
@[simp] theorem State.emit_font (b : Snapshot) : (s.emit b).font = s.font := by rw [State.emit]
@[simp] theorem State.emit_out (b : Snapshot) : (s.emit b).out = s.out ++ [b] := by rw [State.emit]
@[simp] theorem State.emit_port (b : Snapshot) : (s.emit b).port = s.port := by rw [State.emit]
@[simp] theorem State.emit_cp (b : Snapshot) : (s.emit b).cp = s.cp := by rw [State.emit]
@[simp] theorem State.emit_rst (b : Snapshot) : (s.emit b).rst = s.rst := by rw [State.emit]
@[simp] theorem State.emit_resets (b : Snapshot) : (s.emit b).resets = s.resets := by rw [State.emit]

/-! ### consume -/

@[simp] theorem State.consume_fb (n : Nat) : (s.consume n).fb = s.fb := rfl
@[simp] theorem State.consume_orient (n : Nat) : (s.consume n).orient = s.orient := rfl
@[simp] theorem State.consume_fault (n : Nat) : (s.consume n).fault = s.fault := rfl
@[simp] theorem State.consume_fcode (n : Nat) : (s.consume n).fcode = s.fcode := rfl
@[simp] theorem State.consume_font (n : Nat) : (s.consume n).font = s.font := rfl
@[simp] theorem State.consume_out (n : Nat) : (s.consume n).out = s.out := rfl
@[simp] theorem State.consume_port (n : Nat) : (s.consume n).port = s.port.drop n := rfl
@[simp] theorem State.consume_cp (n : Nat) : (s.consume n).cp = s.cp + n := rfl
@[simp] theorem State.consume_rst (n : Nat) : (s.consume n).rst = s.rst := rfl
@[simp] theorem State.consume_resets (n : Nat) : (s.consume n).resets = s.resets := rfl

/-! ### present -/

@[simp] theorem State.present_fb (ws : List Word) : (s.present ws).fb = s.fb := rfl
@[simp] theorem State.present_orient (ws : List Word) : (s.present ws).orient = s.orient := rfl
@[simp] theorem State.present_fault (ws : List Word) : (s.present ws).fault = s.fault := rfl
@[simp] theorem State.present_fcode (ws : List Word) : (s.present ws).fcode = s.fcode := rfl
@[simp] theorem State.present_font (ws : List Word) : (s.present ws).font = s.font := rfl
@[simp] theorem State.present_out (ws : List Word) : (s.present ws).out = s.out := rfl
@[simp] theorem State.present_port (ws : List Word) : (s.present ws).port = s.port ++ ws := rfl
@[simp] theorem State.present_cp (ws : List Word) : (s.present ws).cp = s.cp := rfl
@[simp] theorem State.present_rst (ws : List Word) : (s.present ws).rst = s.rst := rfl
@[simp] theorem State.present_resets (ws : List Word) : (s.present ws).resets = s.resets := rfl

/-! ### raiseReset -/

@[simp] theorem State.raiseReset_fb : (s.raiseReset).fb = s.fb := rfl
@[simp] theorem State.raiseReset_orient : (s.raiseReset).orient = s.orient := rfl
@[simp] theorem State.raiseReset_fault : (s.raiseReset).fault = s.fault := rfl
@[simp] theorem State.raiseReset_fcode : (s.raiseReset).fcode = s.fcode := rfl
@[simp] theorem State.raiseReset_font : (s.raiseReset).font = s.font := rfl
@[simp] theorem State.raiseReset_out : (s.raiseReset).out = s.out := rfl
@[simp] theorem State.raiseReset_port : (s.raiseReset).port = s.port := rfl
@[simp] theorem State.raiseReset_cp : (s.raiseReset).cp = s.cp := rfl
@[simp] theorem State.raiseReset_rst : (s.raiseReset).rst = true := rfl
@[simp] theorem State.raiseReset_resets : (s.raiseReset).resets = s.resets := rfl

/-! ### raiseIllegal -/

@[simp] theorem State.raiseIllegal_fb (c : IllegalCause) : (s.raiseIllegal c).fb = s.fb := rfl
@[simp] theorem State.raiseIllegal_orient (c : IllegalCause) : (s.raiseIllegal c).orient = s.orient := rfl
@[simp] theorem State.raiseIllegal_fault (c : IllegalCause) : (s.raiseIllegal c).fault = true := rfl
@[simp] theorem State.raiseIllegal_fcode (c : IllegalCause) : (s.raiseIllegal c).fcode = c.code := rfl
@[simp] theorem State.raiseIllegal_font (c : IllegalCause) : (s.raiseIllegal c).font = s.font := rfl
@[simp] theorem State.raiseIllegal_out (c : IllegalCause) : (s.raiseIllegal c).out = s.out := rfl
@[simp] theorem State.raiseIllegal_port (c : IllegalCause) : (s.raiseIllegal c).port = s.port := rfl
@[simp] theorem State.raiseIllegal_cp (c : IllegalCause) : (s.raiseIllegal c).cp = s.cp := rfl
@[simp] theorem State.raiseIllegal_rst (c : IllegalCause) : (s.raiseIllegal c).rst = s.rst := rfl
@[simp] theorem State.raiseIllegal_resets (c : IllegalCause) : (s.raiseIllegal c).resets = s.resets := rfl

/-! ### resetWith and takeReset -/

@[simp] theorem State.resetWith_fb (m : Memory) (o : Orientation) (f : FontRom) : (State.resetWith m o f).fb = m := rfl
@[simp] theorem State.resetWith_orient (m : Memory) (o : Orientation) (f : FontRom) : (State.resetWith m o f).orient = o := rfl
@[simp] theorem State.resetWith_fault (m : Memory) (o : Orientation) (f : FontRom) : (State.resetWith m o f).fault = false := rfl
@[simp] theorem State.resetWith_fcode (m : Memory) (o : Orientation) (f : FontRom) : (State.resetWith m o f).fcode = 0 := rfl
@[simp] theorem State.resetWith_font (m : Memory) (o : Orientation) (f : FontRom) : (State.resetWith m o f).font = f := rfl
@[simp] theorem State.resetWith_out (m : Memory) (o : Orientation) (f : FontRom) : (State.resetWith m o f).out = [] := rfl
@[simp] theorem State.resetWith_port (m : Memory) (o : Orientation) (f : FontRom) : (State.resetWith m o f).port = [] := rfl
@[simp] theorem State.resetWith_cp (m : Memory) (o : Orientation) (f : FontRom) : (State.resetWith m o f).cp = 0 := rfl
@[simp] theorem State.resetWith_rst (m : Memory) (o : Orientation) (f : FontRom) : (State.resetWith m o f).rst = false := rfl
@[simp] theorem State.resetWith_resets (m : Memory) (o : Orientation) (f : FontRom) : (State.resetWith m o f).resets = 0 := rfl

@[simp] theorem takeReset_fault : (takeReset s).fault = false := by rw [takeReset]
@[simp] theorem takeReset_fcode : (takeReset s).fcode = 0 := by rw [takeReset]
@[simp] theorem takeReset_font : (takeReset s).font = s.font := by rw [takeReset]
@[simp] theorem takeReset_out : (takeReset s).out = [] := by rw [takeReset]
@[simp] theorem takeReset_port : (takeReset s).port = [] := by rw [takeReset]
@[simp] theorem takeReset_cp : (takeReset s).cp = 0 := by rw [takeReset]
@[simp] theorem takeReset_rst : (takeReset s).rst = false := by rw [takeReset]
@[simp] theorem takeReset_resets : (takeReset s).resets = s.resets + 1 := by rw [takeReset]

/-! ### Updates of updates -/

@[simp] theorem State.withFb_withFb (m m' : Memory) : (s.withFb m).withFb m' = s.withFb m' := rfl
@[simp] theorem State.withFb_self : s.withFb s.fb = s := rfl
@[simp] theorem State.withOrient_withOrient (o o' : Orientation) : (s.withOrient o).withOrient o' = s.withOrient o' := rfl

end Sys2Proof.Machine
end

