-- ==== Sys2Proof/Laws/Step.lean ====
section
/-! SUPPORT. What each command does to the state, and what one step can do, each said once. -/

namespace Sys2Proof.Machine

/-! ### The commands -/

@[simp] theorem exec_clear (s : State) : exec .clear s = .next (s.withFb (Memory.zeroAll s.fb)) := rfl

@[simp] theorem exec_setorient (o : Orientation) (s : State) : exec (.setorient o) s = .next (s.withOrient o) := rfl

@[simp] theorem exec_pset (x y : Int) (on : Bool) (s : State) :
    exec (.pset x y on) s = .next (s.withFb (setPixel s.fb x y on)) := rfl

@[simp] theorem exec_drawpx (x y : Int) (on : Bool) (s : State) :
    exec (.drawpx x y on) s = .next (s.withFb (drawPixel fbcoreParams s.orient s.fb x y on)) := rfl

@[simp] theorem exec_testpat (s : State) :
    exec .testpat s = .next (s.withFb (drawAll fbcoreParams s.orient s.fb testPatternReqs)) := rfl

@[simp] theorem exec_drawch (x y : Int) (code : Byte) (on : Bool) (scale : Byte) (s : State) :
    exec (.drawch x y code on scale) s =
      .next (s.withFb (drawAll fbcoreParams s.orient s.fb (charReqs s.font x y code on scale))) := rfl

@[simp] theorem exec_drawtxt (x y : Int) (text : List Byte) (on : Bool) (scale : Byte) (s : State) :
    exec (.drawtxt x y text on scale) s =
      .next (s.withFb (drawAll fbcoreParams s.orient s.fb
        (textReqs fbcoreParams s.font s.orient x y text on scale))) := rfl

@[simp] theorem exec_snap (s : State) : exec .snap s = .next (s.emit (Memory.bytes s.fb)) := rfl

/-- The Framebuffer a command leaves. -/
def fbAfter : Instr → Orientation → FontRom → Memory → Memory
  | .clear, _, _, m => Memory.zeroAll m
  | .setorient _, _, _, m => m
  | .pset x y on, _, _, m => setPixel m x y on
  | .drawpx x y on, o, _, m => drawPixel fbcoreParams o m x y on
  | .testpat, o, _, m => drawAll fbcoreParams o m testPatternReqs
  | .drawch x y code on scale, o, font, m => drawAll fbcoreParams o m (charReqs font x y code on scale)
  | .drawtxt x y text on scale, o, font, m =>
    drawAll fbcoreParams o m (textReqs fbcoreParams font o x y text on scale)
  | .snap, _, _, m => m

/-- The orientation a command leaves. -/
def orientAfter : Instr → Orientation → Orientation
  | .setorient o, _ => o
  | _, o => o

/-- The snapshots a command adds. -/
def outAfter : Instr → Memory → List Snapshot
  | .snap, m => [Memory.bytes m]
  | _, _ => []

/-- Every command as one update of the state. -/
theorem exec_eq (i : Instr) (s : State) : exec i s = .next { s with
    fb := fbAfter i s.orient s.font s.fb, orient := orientAfter i s.orient, out := s.out ++ outAfter i s.fb } := by
  cases i <;>
    simp only [exec_clear, exec_setorient, exec_pset, exec_drawpx, exec_testpat, exec_drawch, exec_drawtxt, exec_snap,
      State.withFb, State.withOrient, State.emit, fbAfter, orientAfter, outAfter, List.append_nil]

/-- Everything a command can do: write the Framebuffer, keeping its canonical form; set the orientation; emit a
snapshot. -/
theorem exec_cases {i : Instr} {s t : State} (h : exec i s = .next t) :
    (∃ m, t = s.withFb m ∧ (Memory.wf s.fb = true → Memory.wf m = true)) ∨
    (∃ o, i = .setorient o ∧ t = s.withOrient o) ∨
    (i = .snap ∧ t = s.emit (Memory.bytes s.fb)) := by
  cases i with
  | clear => exact .inl ⟨_, (Host.Outcome.next.inj h).symm, Memory.wf_zeroAll⟩
  | setorient o => exact .inr (.inl ⟨o, rfl, (Host.Outcome.next.inj h).symm⟩)
  | pset x y on => exact .inl ⟨_, (Host.Outcome.next.inj h).symm, wf_setPixel x y on⟩
  | drawpx x y on => exact .inl ⟨_, (Host.Outcome.next.inj h).symm, wf_setPixel _ _ on⟩
  | testpat => exact .inl ⟨_, (Host.Outcome.next.inj h).symm, wf_drawAll _ _ _⟩
  | drawch x y code on scale => exact .inl ⟨_, (Host.Outcome.next.inj h).symm, wf_drawAll _ _ _⟩
  | drawtxt x y text on scale => exact .inl ⟨_, (Host.Outcome.next.inj h).symm, wf_drawAll _ _ _⟩
  | snap => exact .inr (.inr ⟨rfl, (Host.Outcome.next.inj h).symm⟩)

/-! ### One step -/

theorem takeReset_fb (s : State) : (takeReset s).fb = Memory.ofBytes (Config.fbAfterReset s.resets) := by
  rw [takeReset]

/-- A sampled reset leaves a canonical Framebuffer. -/
theorem wf_takeReset (s : State) : Memory.wf (takeReset s).fb = true := by
  rw [takeReset_fb]
  exact Memory.wf_ofBytes _

@[simp] theorem decode_nil : decode [] = .noWord := rfl

theorem decode_of_illegal {w : Word} {c : IllegalCause} (h : decodeHeader w = .error c) (rest : List Word) :
    decode (w :: rest) = .illegal c := by
  simp only [decode, h]

theorem decode_of_legal {w : Word} {c : Opcode} (h : decodeHeader w = .ok c) (rest : List Word) :
    decode (w :: rest) = assemble c w rest := by
  simp only [decode, h]

/-- The decoder finds no word only where there is none. -/
theorem decode_cons_ne_noWord (w : Word) (rest : List Word) : decode (w :: rest) ≠ .noWord := by
  cases h : decodeHeader w with
  | error c => simp [decode_of_illegal h]
  | ok c =>
    rw [decode_of_legal h]
    cases c <;> simp only [assemble] <;> first | split <;> simp | simp

/-- Everything a step can do. -/
theorem step_cases {s t : State} (h : step s = .next t) :
    (s.rst = true ∧ t = takeReset s) ∨
    (s.rst = false ∧ s.port = [] ∧ t = s) ∨
    (s.rst = false ∧ s.port ≠ [] ∧ s.fault = true ∧ t = discardWord s) ∨
    (s.rst = false ∧ s.fault = false ∧ ∃ i n, decode s.port = .command i n ∧ exec i (s.consume n) = .next t) ∨
    (s.rst = false ∧ s.fault = false ∧ ∃ c, decode s.port = .illegal c ∧ t = takeIllegal s c) ∨
    (s.rst = false ∧ s.fault = false ∧ decode s.port = .incomplete ∧ t = s) := by
  unfold step at h
  cases hr : s.rst with
  | true => rw [hr, if_pos rfl] at h; exact .inl ⟨rfl, (Host.Outcome.next.inj h).symm⟩
  | false =>
    rw [hr] at h
    simp only [Bool.false_eq_true, if_false] at h
    cases hp : s.port with
    | nil => rw [hp] at h; exact .inr (.inl ⟨rfl, rfl, (Host.Outcome.next.inj h).symm⟩)
    | cons w rest =>
      rw [hp] at h
      cases hf : s.fault with
      | true =>
        rw [hf] at h
        exact .inr (.inr (.inl ⟨rfl, by simp, rfl, (Host.Outcome.next.inj h).symm⟩))
      | false =>
        simp only [hf, Bool.false_eq_true, if_false] at h
        cases hd : decode (w :: rest) with
        | command i n =>
          rw [hd] at h
          exact .inr (.inr (.inr (.inl ⟨rfl, rfl, i, n, rfl, h⟩)))
        | illegal c =>
          rw [hd] at h
          exact .inr (.inr (.inr (.inr (.inl ⟨rfl, rfl, c, rfl, (Host.Outcome.next.inj h).symm⟩))))
        | incomplete =>
          rw [hd] at h
          exact .inr (.inr (.inr (.inr (.inr ⟨rfl, rfl, rfl, (Host.Outcome.next.inj h).symm⟩))))
        | noWord => exact absurd hd (decode_cons_ne_noWord w rest)

end Sys2Proof.Machine
end

