-- ==== Sys2Proof/Tests/Slice0.lean ====
section
/-! SUPPORT. Tests. Expected results are those of 30_encoding.md section 8 and of 95_test_vectors.md, which derives them
by hand from the rules; the vector is named in each docstring. A witness theorem shows that the hypotheses of the
obligation it is named after can be met together, clause by clause. -/

namespace Sys2Proof.Tests

open Sys2Proof Sys2Proof.Machine

/-! ### Ill-formed terms are refused, the bounds themselves are not -/

theorem test_wf_pset_x_high : Instr.wellFormed (.pset 32768 0 true) = false := by decide
theorem test_wf_pset_y_low : Instr.wellFormed (.pset 0 (-32769) true) = false := by decide
theorem test_wf_drawpx_x_low : Instr.wellFormed (.drawpx (-32769) 0 true) = false := by decide
theorem test_wf_drawpx_y_high : Instr.wellFormed (.drawpx 0 32768 true) = false := by decide
theorem test_wf_drawch_x_high : Instr.wellFormed (.drawch 32768 0 65 true 1) = false := by decide
theorem test_wf_drawch_y_low : Instr.wellFormed (.drawch 0 (-32769) 65 true 1) = false := by decide
theorem test_wf_drawtxt_x_low : Instr.wellFormed (.drawtxt (-32769) 0 [] true 1) = false := by decide
theorem test_wf_drawtxt_y_high : Instr.wellFormed (.drawtxt 0 32768 [] true 1) = false := by decide
theorem test_wf_drawtxt_long : Instr.wellFormed (.drawtxt 0 0 (List.replicate 256 65) true 1) = false := by decide +kernel
theorem test_wf_bounds : Instr.wellFormed (.pset (-32768) 32767 true) = true ∧
    Instr.wellFormed (.drawtxt 32767 (-32768) (List.replicate 255 65) true 255) = true := by decide +kernel

/-! ### Words written out field by field from 30_encoding.md section 2

A header word is op (8 bits), rsv (7), on (1), scale (8), arg (8), x (16), y (16), from bit 63 down. -/

/-- CLEAR, op 0x01. -/
theorem test_decode_clear :
    decode [0b00000001#8 ++ 0b0000000#7 ++ 0b0#1 ++ 0b00000000#8 ++ 0b00000000#8 ++ 0#16 ++ 0#16] =
      .command .clear 1 := by decide
/-- SETORIENT, op 0x02, the orientation in arg[1:0]. -/
theorem test_decode_setorient :
    decode [0b00000010#8 ++ 0b0000000#7 ++ 0b0#1 ++ 0b00000000#8 ++ 0b00000011#8 ++ 0#16 ++ 0#16] =
      .command (.setorient .rot270) 1 := by decide
/-- PSET -32768, 32767, 1 (V34). -/
theorem test_decode_pset :
    decode [0b00000011#8 ++ 0b0000000#7 ++ 0b1#1 ++ 0b00000000#8 ++ 0b00000000#8 ++ 0b1000000000000000#16 ++
      0b0111111111111111#16] = .command (.pset (-32768) 32767 true) 1 := by decide
/-- DRAWPX 8, -1, 0. -/
theorem test_decode_drawpx :
    decode [0b00000100#8 ++ 0b0000000#7 ++ 0b0#1 ++ 0b00000000#8 ++ 0b00000000#8 ++ 0b0000000000001000#16 ++
      0b1111111111111111#16] = .command (.drawpx 8 (-1) false) 1 := by decide
/-- TESTPAT, op 0x05. -/
theorem test_decode_testpat :
    decode [0b00000101#8 ++ 0b0000000#7 ++ 0b0#1 ++ 0b00000000#8 ++ 0b00000000#8 ++ 0#16 ++ 0#16] =
      .command .testpat 1 := by decide
/-- DRAWCH 10, 4, 'A', 1, 2. -/
theorem test_decode_drawch :
    decode [0b00000110#8 ++ 0b0000000#7 ++ 0b1#1 ++ 0b00000010#8 ++ 0b01000001#8 ++ 0b0000000000001010#16 ++
      0b0000000000000100#16] = .command (.drawch 10 4 0x41 true 2) 1 := by decide
/-- DRAWTXT 0, 0, "A?B \n", 1, 1 (V42), the payload word from its last byte down. -/
theorem test_decode_drawtxt :
    decode [0b00000111#8 ++ 0b0000000#7 ++ 0b1#1 ++ 0b00000001#8 ++ 0b00000101#8 ++ 0#16 ++ 0#16,
      0x00#8 ++ 0x00#8 ++ 0x00#8 ++ 0x0A#8 ++ 0x20#8 ++ 0x42#8 ++ 0x3F#8 ++ 0x41#8] =
      .command (.drawtxt 0 0 [0x41, 0x3F, 0x42, 0x20, 0x0A] true 1) 2 := by decide
/-- SNAP, op 0x08. -/
theorem test_decode_snap :
    decode [0b00001000#8 ++ 0b0000000#7 ++ 0b0#1 ++ 0b00000000#8 ++ 0b00000000#8 ++ 0#16 ++ 0#16] =
      .command .snap 1 := by decide

/-- Reserved opcodes: V44, V45, V46, V54. -/
theorem test_decode_reserved :
    decode [0x0000000000000000#64] = .illegal .reservedOpcode ∧
    decode [0xFF00000000000000#64] = .illegal .reservedOpcode ∧
    decode [0x0900000000000000#64] = .illegal .reservedOpcode ∧
    decode [0x0900000000000001#64] = .illegal .reservedOpcode := by decide

/-- Must-be-zero bits, one word for each row of the opcode table that V47 to V53 and V55 give. -/
theorem test_decode_must_be_zero :
    decode [0x0800000000000001#64] = .illegal .mustBeZero ∧
    decode [0x0501000000000000#64] = .illegal .mustBeZero ∧
    decode [0x0200000400000000#64] = .illegal .mustBeZero ∧
    decode [0x0200000300000001#64] = .illegal .mustBeZero ∧
    decode [0x0301000100000000#64] = .illegal .mustBeZero ∧
    decode [0x0602014100000000#64] = .illegal .mustBeZero ∧
    decode [0x0780000000000000#64] = .illegal .mustBeZero ∧
    decode [0x06FFFFFFFFFFFFFF#64] = .illegal .mustBeZero := by decide

/-- The assembler's words: V38, V40, V42, V21. -/
theorem test_encode :
    encode (.drawch 3 9 200 true 1) = [0x060101C800030009#64] ∧
    encode (.drawch (-2) (-3) 63 true 1) = [0x0601013FFFFEFFFD#64] ∧
    encode (.drawtxt 0 0 [0x41, 0x3F, 0x42, 0x20, 0x0A] true 1) =
      [0x0701010500000000#64, 0x0000000A20423F41#64] ∧
    encode (.drawpx 0 0 true) = [0x0401000000000000#64] := by decide

/-- Words as numbers: a one-word row, a DRAWTXT of two payload words whose bits stop after the header (all characters
zero), a DRAWTXT whose payload is given, and an illegal word. -/
theorem test_decodeTableWord :
    decodeTableWord 64 0x030100000005000A = some (.pset 5 10 true) ∧
    decodeTableWord 64 0x0701010900000000 = some (.drawtxt 0 0 (List.replicate 9 0) true 1) ∧
    decodeTableWord 128 (0x0701010200000000 + 2 ^ 64 * 0x3F41) = some (.drawtxt 0 0 [0x41, 0x3F] true 1) ∧
    decodeTableWord 64 0x0900000000000000 = none := by decide

/-- V41: a DRAWTXT of 30 characters takes a header and 4 payload words. -/
theorem test_encodedLength_drawtxt : (encode (.drawtxt 0 0 (List.replicate 30 65) true 1)).length = 5 :=
  Laws.EncodedLength.drawtxt 0 0 (List.replicate 30 65) true 1

/-! ### One step on a small state -/

/-- TESTFONT of 95_test_vectors.md section 2. -/
def testFont : FontRom :=
  (((Vector.replicate 95 #v[0x00, 0x00, 0x00, 0x00, 0x00]).set 31 #v[0x7F, 0x00, 0x00, 0x00, 0x01]).set 33
    #v[0x01, 0x02, 0x04, 0x08, 0x10]).set 34 #v[0x80, 0x00, 0x00, 0x00, 0x40]

/-- A clear buffer, NORMAL, TESTFONT. -/
def blank : State := State.resetWith [] .normal testFont

/-- The same under another orientation. -/
def under (o : Orientation) : State := State.resetWith [] o testFont

/-- A buffer of the given cells, NORMAL, TESTFONT. -/
def holding (m : Memory) : State := State.resetWith m .normal testFont

/-- The next state of an outcome. -/
def nextState : Host.Outcome State Fault Refusal → Option State
  | .next t => some t
  | .fault _ => none
  | .refused _ => none

/-- The cells of the Framebuffer after a step on the words given. -/
def fbAfterStep (s : State) (ws : List Word) : Option Memory := (nextState (step (s.present ws))).map State.fb

/-- V81: CLEAR empties a buffer. -/
theorem test_step_clear :
    fbAfterStep (holding [(0, 0x01), (133, 0x04), (1023, 0x80)]) [0x0100000000000000#64] = some [] := by decide +kernel

/-- V116: SETORIENT. -/
theorem test_step_setorient :
    (nextState (step (blank.present [0x0200000200000000#64]))).map State.orient = some .rot180 := by decide

/-- V118: the pixels do not move. -/
theorem test_step_setorient_fb :
    fbAfterStep (holding [(0, 0x01)]) [0x0200000200000000#64] = some [(0, 0x01)] := by decide

/-- V75, V74, V80 (setting a set bit again). -/
theorem test_step_pset :
    fbAfterStep blank [0x030100000005000A#64] = some [(133, 0x04)] ∧
    fbAfterStep (holding [(133, 0x04)]) [0x03010000007F003F#64] = some [(133, 0x04), (1023, 0x80)] ∧
    fbAfterStep (holding [(133, 0x04)]) [0x030100000005000A#64] = some [(133, 0x04)] := by decide

/-- V78 at one byte, the canonical form when a byte becomes zero, V77. -/
theorem test_step_pset_clears_and_drops :
    fbAfterStep (holding [(132, 0xFF), (133, 0xFF)]) [0x030000000005000A#64] = some [(132, 0xFF), (133, 0xFB)] ∧
    fbAfterStep (holding [(133, 0x04)]) [0x030000000005000A#64] = some [] ∧
    fbAfterStep blank [0x0301000000800000#64] = some [] ∧
    fbAfterStep blank [0x0301000080007FFF#64] = some [] := by decide

/-- V99, V106, V110, V113. -/
theorem test_step_drawpx :
    fbAfterStep (under .rot90) [0x04010000000A0014#64] = some [(788, 0x20)] ∧
    fbAfterStep (under .rot180) [0x04010000000A0014#64] = some [(757, 0x08)] ∧
    fbAfterStep (under .rot270) [0x04010000000A0014#64] = some [(171, 0x04)] ∧
    fbAfterStep (under .rot270) [0x040100000000FFFF#64] = some [(64, 0x01)] := by decide

/-- V95, V96, V100, V111. -/
theorem test_step_drawpx_edges :
    fbAfterStep (under .rot90) [0x0401000000000000#64] = some [(896, 0x80)] ∧
    fbAfterStep (under .rot90) [0x04010000003F0000#64] = some [(0, 0x01)] ∧
    fbAfterStep (under .rot90) [0x0401000000400000#64] = some [] ∧
    fbAfterStep (under .rot270) [0x0401000000000040#64] = some [] := by decide

/-- V130, one pixel of the first block and one of the second. (8192 pixel writes are too many for `decide`.) -/
theorem test_testpat_normal : ∃ t, exec .testpat blank = .next t ∧
    getPixel t.fb 7 7 = true ∧ getPixel t.fb 8 0 = false := by
  refine ⟨_, exec_testpat blank, ?_, ?_⟩ <;>
    rw [State.withFb_fb, getPixel_drawAll _ _ _ _ (by decide)]
  · rw [lastHit_eq_some (v := true) ⟨_, mem_testPatternReqs.mpr ⟨7, by decide, 7, by decide, rfl⟩, by decide⟩]
    · rfl
    · intro r hr h
      obtain ⟨y, -, x, -, rfl⟩ := mem_testPatternReqs.mp hr
      simp only [transform, blank, State.resetWith, Prod.mk.injEq] at h
      exact decide_eq_true (by omega)
  · rw [lastHit_eq_some (v := false) ⟨_, mem_testPatternReqs.mpr ⟨0, by decide, 8, by decide, rfl⟩, by decide⟩]
    · rfl
    · intro r hr h
      obtain ⟨y, -, x, -, rfl⟩ := mem_testPatternReqs.mp hr
      simp only [transform, blank, State.resetWith, Prod.mk.injEq] at h
      exact decide_eq_false (by omega)

/-- V134: under ROT90 the pattern is inverted on the left half, and a byte of the right half keeps its value. -/
theorem test_testpat_rot90 : ∃ t, exec .testpat { under .rot90 with fb := [(0, 0xFF), (64, 0xFF)] } = .next t ∧
    getPixel t.fb 0 0 = false ∧ getPixel t.fb 64 0 = true := by
  refine ⟨_, exec_testpat _, ?_, ?_⟩ <;>
    rw [State.withFb_fb, getPixel_drawAll _ _ _ _ (by decide)]
  · rw [lastHit_eq_some (v := false) ⟨_, mem_testPatternReqs.mpr ⟨0, by decide, 63, by decide, rfl⟩, by decide⟩]
    · rfl
    · intro r hr h
      obtain ⟨y, -, x, -, rfl⟩ := mem_testPatternReqs.mp hr
      simp only [transform, under, State.resetWith, fbcoreParams, Prod.mk.injEq] at h
      exact decide_eq_false (by omega)
  · rw [lastHit_eq_none]
    · decide
    · intro r hr h
      obtain ⟨y, hy, x, -, rfl⟩ := mem_testPatternReqs.mp hr
      simp only [transform, under, State.resetWith, fbcoreParams, Prod.mk.injEq] at h
      omega

/-- V155, V153, V157, V164: position, scale, row 7, clipping, orientation. -/
theorem test_step_drawch :
    fbAfterStep blank [0x06010241000A0004#64] = some [(10, 0x30), (11, 0x30), (12, 0xC0), (13, 0xC0), (142, 0x03),
      (143, 0x03), (144, 0x0C), (145, 0x0C), (146, 0x30), (147, 0x30)] ∧
    fbAfterStep blank [0x0601014200000000#64] = some [(0, 0x80), (4, 0x40)] ∧
    fbAfterStep blank [0x0601013F007D003C#64] = some [(1021, 0xF0)] ∧
    fbAfterStep (under .rot90) [0x0601014100000000#64] =
      some [(896, 0x80), (897, 0x40), (898, 0x20), (899, 0x10), (900, 0x08)] := by decide +kernel

/-- V152 (code 200 draws `?`), V163 at its bytes, V159. -/
theorem test_step_drawch_corners :
    fbAfterStep blank [0x060101C800000000#64] = some [(0, 0x7F), (4, 0x01)] ∧
    fbAfterStep (holding [(0, 0xFF), (1, 0xFF), (2, 0xFF), (3, 0xFF), (4, 0xFF), (5, 0xFF)]) [0x0600014100000000#64] =
      some [(0, 0xFE), (1, 0xFD), (2, 0xFB), (3, 0xF7), (4, 0xEF), (5, 0xFF)] ∧
    fbAfterStep blank [0x0601004100000000#64] = some [] := by decide +kernel

/-- V181: the mixed string. -/
theorem test_step_drawtxt :
    fbAfterStep blank [0x0701010500000000#64, 0x0000000A20423F41#64] = some [(0, 0x01), (1, 0x02), (2, 0x04), (3, 0x08),
      (4, 0x10), (6, 0x7F), (10, 0x01), (12, 0x80), (16, 0x40), (24, 0x7F), (28, 0x01)] := by decide +kernel

/-- V60, V62, V65, V67, V173, V175, V177: how many characters, and the first and last cursor. -/
theorem test_textCells :
    (textCells fbcoreParams .normal 0 0 (List.replicate 200 65) 1).length = 168 ∧
    (textCells fbcoreParams .normal 0 0 (List.replicate 200 65) 1).getLast? = some ⟨120, 56, 65⟩ ∧
    (textCells fbcoreParams .rot90 0 0 (List.replicate 200 65) 1).getLast? = some ⟨54, 120, 65⟩ ∧
    textCells fbcoreParams .normal 0 57 [65, 65] 1 = [] ∧
    textCells fbcoreParams .normal 123 0 [65, 66, 67] 1 = [⟨123, 8, 65⟩, ⟨123, 16, 66⟩, ⟨123, 24, 67⟩] ∧
    textCells fbcoreParams .normal 0 0 [65, 66, 67] 8 = [⟨0, 0, 65⟩, ⟨48, 0, 66⟩] ∧
    textCells fbcoreParams .rot90 0 0 [65, 66] 10 = [⟨0, 0, 65⟩] ∧
    textCells fbcoreParams .normal (-6) 0 [65, 66, 67] 1 = [⟨-6, 0, 65⟩, ⟨0, 0, 66⟩, ⟨6, 0, 67⟩] := by decide +kernel

/-- The spec's other readings: V65, V67, V100 under the alternative parameters. -/
theorem test_other_readings :
    textCells ⟨63, .origin, .after⟩ .normal 0 57 [65, 65] 1 = [⟨0, 57, 65⟩] ∧
    textCells ⟨63, .zero, .before⟩ .normal 123 0 [65, 66, 67] 1 = [⟨0, 8, 65⟩, ⟨6, 8, 66⟩, ⟨12, 8, 67⟩] ∧
    transform ⟨127, .origin, .before⟩ .rot90 64 0 = (0, 63) := by decide +kernel

/-- V82: the snapshot. -/
theorem test_step_snap :
    (nextState (step ((holding [(0, 0x01), (1023, 0x80)]).present [0x0800000000000000#64]))).map
      (fun t => t.out.map fun b => (b.length, b.head?, b[1]?, b.getLast?)) =
      some [(1024, some 0x01, some 0x00, some 0x80)] := by decide +kernel

/-- V190, V191: the two causes. -/
theorem test_step_illegal :
    nextState (step ((holding [(1, 0x02)]).present [0x0900000000000000#64])) =
      some { holding [(1, 0x02)] with fault := true, fcode := 1, cp := 1 } ∧
    nextState (step ((holding [(1, 0x02)]).present [0x0200000400000000#64])) =
      some { holding [(1, 0x02)] with fault := true, fcode := 2, cp := 1 } := by decide +kernel

/-- V192: a CLEAR in the fault state is discarded. -/
theorem test_step_discard :
    nextState (step { holding [(1, 0x02)] with fault := true, fcode := 1, port := [0x0100000000000000#64] }) =
      some { holding [(1, 0x02)] with fault := true, fcode := 1, cp := 1 } := by decide +kernel

/-- V195: the second payload word is awaited; V194: whatever it holds, it is payload. -/
theorem test_step_payload :
    nextState (step (blank.present [0x0701010900000000#64, 0x4141414141414141#64])) =
      some (blank.present [0x0701010900000000#64, 0x4141414141414141#64]) ∧
    (nextState (step (blank.present [0x0701010900000000#64, 0x0900000000000000#64, 0x0000000000000000#64]))).map
      (fun t => (t.fault, t.cp, t.port)) = some (false, 3, []) := by decide +kernel

/-- 10_state.md R32: what a sampled reset clears, out of the fault state. -/
theorem test_step_reset :
    (nextState (step { blank with fault := true, fcode := 2, out := [[]], port := [0#64], cp := 7, rst := true })).map
      (fun t => (t.fault, t.fcode, t.out.length, t.port, t.rst)) = some (false, 0, 0, [], false) := by decide

/-- `withFetchWord`: the very next step runs the word, from reset and from the fault state. -/
theorem test_withFetchWord :
    (nextState (step (State.reset.withFetchWord 64 0x030100000005000A))).map State.fb = some [(133, 0x04)] ∧
    (nextState (step ({ blank with fault := true, rst := true }.withFetchWord 64 0x030100000005000A))).map State.fb =
      some [(133, 0x04)] := by decide

/-! ### The hypotheses of the obligations can be met -/

theorem witness_DecodeOfEncodeIsTheInstruction :
    Instr.wellFormed (.drawtxt (-32768) 32767 (List.replicate 9 0xFF) true 255) = true := by decide

theorem witness_EveryDecodedWordIsTheEncoding :
    decode [0x0701010200000000#64, 0xFFFFFFFFFFFF3F41#64] = .command (.drawtxt 0 0 [0x41, 0x3F] true 1) 2 ∧
    1 < [0x41#8, 0x3F#8].length := by decide

theorem witness_HeaderIsLegalOrIllegalByCause :
    ¬ (1 ≤ (opField 0x0900000000000000).toNat ∧ (opField 0x0900000000000000).toNat ≤ 8) ∧
    ¬ (1 ≤ (opField 0x00FFFFFFFFFFFFFF).toNat ∧ (opField 0x00FFFFFFFFFFFFFF).toNat ≤ 8) ∧
    (opField 0x0200000400000000 = Opcode.setorient.toByte ∧
      0x0200000400000000 &&& Opcode.setorient.maskBits ≠ Opcode.setorient.matchBits) ∧
    (opField 0x0200000300000000 = Opcode.setorient.toByte ∧
      0x0200000300000000 &&& Opcode.setorient.maskBits = Opcode.setorient.matchBits) ∧
    (1 ≤ (opField 0x0100000000000000).toNat ∧ (opField 0x0100000000000000).toNat ≤ 8) ∧
    (1 ≤ (opField 0x0800000000000000).toNat ∧ (opField 0x0800000000000000).toNat ≤ 8) := by decide

theorem witness_OpcodeRowsAreDisjoint :
    0x03010000007F003F#64 &&& Opcode.pset.maskBits = Opcode.pset.matchBits := by decide

theorem witness_DrawtxtTakesItsPayloadWords :
    0x0701010900000000#64 &&& Opcode.drawtxt.maskBits = Opcode.drawtxt.matchBits ∧
    [0#64].length < ((argField 0x0701010900000000).toNat + 7) / 8 ∧
    ((argField 0x0701010900000000).toNat + 7) / 8 ≤ [0#64, 0#64].length := by decide

theorem witness_StepRunsTheDecodedCommand :
    (blank.present [0x0800000000000000#64]).rst = false ∧ (blank.present [0x0800000000000000#64]).fault = false ∧
    decode (blank.present [0x0800000000000000#64]).port = .command .snap 1 := by decide

theorem witness_IllegalWordEntersTheFaultState :
    ((blank.present [0x0900000000000000#64]).rst = false ∧ (blank.present [0x0900000000000000#64]).fault = false ∧
      (blank.present [0x0900000000000000#64]).port = 0x0900000000000000#64 :: [] ∧
      ¬ (1 ≤ (opField 0x0900000000000000).toNat ∧ (opField 0x0900000000000000).toNat ≤ 8)) ∧
    ((blank.present [0x0780000900000000#64, 1#64]).port = 0x0780000900000000#64 :: [1#64] ∧
      opField 0x0780000900000000 = Opcode.drawtxt.toByte ∧
      0x0780000900000000 &&& Opcode.drawtxt.maskBits ≠ Opcode.drawtxt.matchBits) := by decide

theorem witness_FaultStateDiscardsAWord :
    ({ blank with fault := true, fcode := 1, port := [0x0100000000000000#64] } : State).rst = false ∧
    ({ blank with fault := true, fcode := 1, port := [0x0100000000000000#64] } : State).fault = true ∧
    ({ blank with fault := true, fcode := 1, port := [0x0100000000000000#64] } : State).port =
      0x0100000000000000#64 :: [] := by decide

theorem witness_FaultStateLastsUntilReset :
    ({ blank with fault := true, fcode := 2 } : State).rst = false ∧
    ({ blank with fault := true, fcode := 2 } : State).fault = true := by decide

theorem witness_DrawtxtWaitsForItsPayload :
    (blank.present [0x0701010900000000#64, 5#64]).rst = false ∧
    (blank.present [0x0701010900000000#64, 5#64]).fault = false ∧
    (blank.present [0x0701010900000000#64, 5#64]).port = 0x0701010900000000#64 :: [5#64] ∧
    0x0701010900000000#64 &&& Opcode.drawtxt.maskBits = Opcode.drawtxt.matchBits ∧
    [5#64].length < ((argField 0x0701010900000000).toNat + 7) / 8 := by decide

theorem witness_WithoutAWordNothingHappens : blank.rst = false ∧ blank.port = [] := by decide

theorem witness_SampledResetStartsANewRun :
    ({ blank with fault := true, fcode := 2 } : State).raiseReset.rst = true := by decide

theorem witness_ResetMeetsTheInvariant : Memory.wf [(0, 0x01#8), (1023, 0x80#8)] = true := by decide

/-- A state that meets the invariant, in the fault state, and its next state. -/
theorem witness_EveryStepKeepsTheInvariant :
    State.Inv { holding [(0, 0x01), (1023, 0x80)] with
      fault := true, fcode := 2, port := [0#64], out := [List.replicate 1024 0] } ∧
    ∃ t, step { holding [(0, 0x01), (1023, 0x80)] with
      fault := true, fcode := 2, port := [0#64], out := [List.replicate 1024 0] } = .next t := by
  refine ⟨⟨by decide, by decide, by decide, ?_⟩, _, rfl⟩
  intro b hb
  rw [List.mem_singleton.mp hb, List.length_replicate]

theorem witness_WordsBehindACommandDoNotMatter :
    (∃ t, blank.rst = false ∧ (blank.present [0x0200000100000000#64]).port ≠ [] ∧
      decode (blank.present [0x0200000100000000#64]).port ≠ .incomplete ∧
      step (blank.present [0x0200000100000000#64]) = .next t) ∧
    (∃ t, ({ blank with fault := true, fcode := 1, port := [0#64] } : State).port ≠ [] ∧
      step { blank with fault := true, fcode := 1, port := [0#64] } = .next t) :=
  ⟨⟨_, by decide, by decide, by decide, rfl⟩, ⟨_, by decide, rfl⟩⟩

/-- A step that runs a SETORIENT and one that runs a SNAP. -/
theorem witness_OutIsAppendOnly :
    (∃ t, blank.rst = false ∧ step (blank.present [0x0200000100000000#64]) = .next t) ∧
    (∃ t, step (blank.present [0x0800000000000000#64]) = .next t) := ⟨⟨_, by decide, rfl⟩, ⟨_, rfl⟩⟩

theorem witness_CommandsLeaveOtherStateAlone :
    (∃ t, exec (.setorient .rot90) blank = .next t ∧ Instr.setorient .rot90 ≠ .snap) ∧
    (∃ t, exec .snap blank = .next t ∧ ∀ o, Instr.snap ≠ .setorient o) ∧
    (∃ t, exec .clear blank = .next t ∧ (∀ o, Instr.clear ≠ .setorient o) ∧ Instr.clear ≠ .snap) :=
  ⟨⟨_, rfl, by decide⟩, ⟨_, rfl, by simp⟩, ⟨_, exec_clear _, by simp, by decide⟩⟩

theorem witness_OnlySetorientAndResetChangeOrient :
    ∃ t, step (blank.present [0x0200000100000000#64]) = .next t ∧
      (blank.present [0x0200000100000000#64]).rst = false := ⟨_, rfl, by decide⟩

/-- For every statement about a point in range and one out of range: the corners and their neighbours outside. -/
theorem witness_InRange :
    InRange 0 0 ∧ InRange 127 63 ∧ ¬ InRange 128 0 ∧ ¬ InRange 0 64 ∧ ¬ InRange (-1) 0 ∧ ¬ InRange 0 (-1) := by decide

theorem witness_PixelsAndBitsAreInBijection : InRange 127 63 ∧ 7 < 8 := by decide

/-- The byte of the point and another one. -/
theorem witness_PsetSetsOrClearsOneBit :
    InRange 127 63 ∧ (((1023 : FbIndex).val : Int) = 127 + 63 / 8 * 128) ∧ ((0 : FbIndex).val : Int) ≠ 127 + 63 / 8 * 128 ∧
    ¬ InRange 127 64 := by decide

theorem witness_SetPixelProperties :
    InRange 0 63 ∧ InRange 0 62 ∧ ((0 : Int), (62 : Int)) ≠ (0, 63) ∧ ¬ InRange (-1) 63 := by decide

/-- A byte that each form does not store to: PSET in range and out of range, DRAWPX dropped, a glyph with a blank
column, a text of one character. -/
theorem witness_DrawingStoresOnlyToItsBytes :
    (¬ (InRange 5 10 ∧ (134 : FbIndex) = byteIndex 5 10)) ∧
    (¬ (InRange 128 0 ∧ (0 : FbIndex) = byteIndex 128 0)) ∧
    storedByte fbcoreParams .rot90 ⟨64, 0, true⟩ ≠ some 0 ∧
    storedByte fbcoreParams .normal ⟨5, 10, true⟩ ≠ some 134 ∧
    5 ∉ storedBytes fbcoreParams .normal (charReqs testFont 0 0 0x41 true 1) ∧
    5 ∉ storedBytes fbcoreParams .normal (textReqs fbcoreParams testFont .normal 0 0 [0x41, 0x3F] true 1) := by
  decide +kernel

/-- Under ROT90 the test pattern stores to no byte of the right half. -/
theorem witness_DrawingStoresOnlyToItsBytes_testpat : 64 ∉ storedBytes fbcoreParams .rot90 testPatternReqs := by
  decide +kernel

theorem witness_SetorientSetsOnlyOrient :
    0x0200000300000000#64 &&& 0xFFFFFFFCFFFFFFFF = 0x0200000000000000 := by decide

theorem witness_TransformWorkedValues : InRange 0 0 ∧ InRange 127 63 := by decide

theorem witness_TransformIsABijection :
    transform fbcoreParams .rot270 63 (-64) = transform fbcoreParams .rot270 63 (-64) := rfl

/-- Both clauses, at the edges of the band. -/
theorem witness_Rot90ReadingsDifferOnlyInTheBand :
    (⟨127, .origin, .before⟩ : Params).rot90ElseBase = 127 ∧
    (¬ (Orientation.rot90 = .rot90 ∧ (64 : Int) ≤ 63 ∧ (63 : Int) ≤ 127 ∧ (0 : Int) ≤ 0 ∧ (0 : Int) ≤ 127)) ∧
    (Orientation.rot90 = .rot90 ∧ (64 : Int) ≤ 64 ∧ (64 : Int) ≤ 127 ∧ (0 : Int) ≤ 127 ∧ (127 : Int) ≤ 127) := by
  decide

theorem witness_DrawpxWritesTheTransformedPixel :
    InRange 0 63 ∧ transform fbcoreParams .rot90 0 0 = (0, 63) ∧ transform fbcoreParams .rot90 1 0 ≠ (0, 63) ∧
    ¬ InRange (transform fbcoreParams .rot90 64 0).1 (transform fbcoreParams .rot90 64 0).2 := by decide

theorem witness_DroppedPixelsChangeNothing :
    ¬ InRange (transform fbcoreParams (under .rot270).orient 0 64).1 (transform fbcoreParams (under .rot270).orient 0 64).2 ∧
    ¬ InRange (transform fbcoreParams blank.orient 128 0).1 (transform fbcoreParams blank.orient 128 0).2 := by decide

theorem witness_DrawpxUnderNormalIsPset : blank.orient = .normal := rfl

theorem witness_DrawPixelSourceProperties :
    (blank.orient = .normal ∧ InRange 127 63 ∧ ((0 : FbIndex).val : Int) ≠ 127 + 63 / 8 * 128 ∧
      ((1023 : FbIndex).val : Int) = 127 + 63 / 8 * 128 ∧ 6 < 8 ∧ (6 : Int) ≠ 63 % 8) ∧
    (under .rot90).orient = .rot90 ∧ (under .rot180).orient = .rot180 := by decide

/-- The three ranges of codes; a pixel that glyph `A` covers and one that it does not. -/
theorem witness_DrawchPaintsItsGlyph :
    ((33 : Fin 95).val = if 32 ≤ (65 : Byte).toNat ∧ (65 : Byte).toNat ≤ 126 then (65 : Byte).toNat - 32 else 31) ∧
    ((94 : Fin 95).val = if 32 ≤ (126 : Byte).toNat ∧ (126 : Byte).toNat ≤ 126 then (126 : Byte).toNat - 32 else 31) ∧
    ((31 : Fin 95).val = if 32 ≤ (127 : Byte).toNat ∧ (127 : Byte).toNat ≤ 126 then (127 : Byte).toNat - 32 else 31) ∧
    InRange 4 4 ∧ Spec.GlyphCovers blank 33 0 0 1 4 4 ∧ InRange 5 4 ∧ ¬ Spec.GlyphCovers blank 33 0 0 1 5 4 := by
  refine ⟨by decide, by decide, by decide, by decide, ⟨4, 4, 4, 4, by decide⟩, by decide, ?_⟩
  rintro ⟨c, r, lx, ly, -, -, -, h, -, -, hT⟩
  have h5 : lx = 5 := congrArg Prod.fst hT
  have hs : ((1 : Byte).toNat : Int) = 1 := rfl
  have hc := c.isLt
  rw [hs] at h
  omega

theorem witness_UnsupportedCodesDrawQuestionMark :
    (∀ code ∈ [0x00#8, 0x1F#8, 0x7F#8, 0xFF#8], ¬ (32 ≤ code.toNat ∧ code.toNat ≤ 126)) ∧
    (∀ code ∈ [0x20#8, 0x7E#8], 32 ≤ code.toNat ∧ code.toNat ≤ 126) := by decide

/-- A pixel beside the box of a glyph of scale 2 at (10, 4), on each side. -/
theorem witness_GlyphStaysInItsBox :
    ∀ q ∈ [((9 : Int), (4 : Int)), (20, 4), (10, 3), (10, 20)], InRange q.1 q.2 ∧
      transform fbcoreParams .normal q.1 q.2 = (q.1, q.2) ∧
      (q.1 < 10 ∨ 10 + 5 * ((2 : Byte).toNat : Int) ≤ q.1 ∨ q.2 < 4 ∨ 4 + 8 * ((2 : Byte).toNat : Int) ≤ q.2) := by
  decide

theorem witness_DrawtxtRunsItsPseudocode :
    ((under .rot180).orient = .normal ∨ (under .rot180).orient = .rot180) ∧
    ((under .rot270).orient = .rot90 ∨ (under .rot270).orient = .rot270) ∧
    ¬ ((under .rot180).orient = .rot90 ∨ (under .rot180).orient = .rot270) := by decide

/-- 30 characters of scale 1, the last character of the first line and the first of the second; a scale at which no line
fits. -/
theorem witness_TextCapacityFromTheOrigin :
    ((1 : Byte) ≠ 0 ∧ ((21 : Nat) : Int) = logicalWidth .normal / (6 * (1 : Byte).toNat) ∧
      ((8 : Nat) : Int) = logicalHeight .normal / (8 * (1 : Byte).toNat) ∧
      30 = min (List.replicate 30 (65 : Byte)).length (21 * 8) ∧ 20 < 30 ∧ 21 < 30) ∧
    ((9 : Byte) ≠ 0 ∧ ((2 : Nat) : Int) = logicalWidth .normal / (6 * (9 : Byte).toNat) ∧
      ((0 : Nat) : Int) = logicalHeight .normal / (8 * (9 : Byte).toNat) ∧
      0 = min [(65 : Byte)].length (2 * 0)) := by decide

/-- A string that stops after its second character, and one that stops before its first. -/
theorem witness_TextStopsAndDoesNotSkip :
    (textCells fbcoreParams blank.orient 0 0 [65, 66, 67] 8).length < [65#8, 66#8, 67#8].length ∧
    (textCells fbcoreParams blank.orient 0 57 [65] 1).length < [65#8].length := by decide +kernel

/-- The last cursor that passes both tests, with the alternative parameters. -/
theorem witness_TextReadingsAgreeWhereTheStartFits :
    (122 : Int) ≤ logicalWidth .normal - 6 * (1 : Byte).toNat ∧ (56 : Int) ≤ logicalHeight .normal - 8 * (1 : Byte).toNat ∧
    ((⟨63, .origin, .after⟩ : Params).textWrapColumn = .origin) ∧ ((⟨63, .zero, .after⟩ : Params).textWrapColumn ≠ .origin) := by
  decide

/-- Two states that differ in the Framebuffer only. -/
theorem witness_PaintingIgnoresOldContents :
    blank.orient = (holding [(0, 0xFF)]).orient ∧ blank.font = (holding [(0, 0xFF)]).font ∧
    blank.fb ≠ (holding [(0, 0xFF)]).fb ∧ InRange 0 0 := ⟨rfl, rfl, by decide, by decide⟩

theorem witness_CommandsAreIdempotent : Instr.testpat ≠ .snap ∧ Instr.setorient .rot90 ≠ .snap := by decide

theorem witness_SeventeenBitsSuffice :
    coordOk (-32768) = true ∧ coordOk 32767 = true ∧
    ⟨32767, 32767, true⟩ ∈ charReqs testFont 32767 32767 0x41 true 255 ∧
    ⟨0, 0, true⟩ ∈ textReqs fbcoreParams testFont .normal 0 0 [0x41] true 1 ∧ ⟨0, 0, true⟩ ∈ testPatternReqs ∧
    ⟨122, 56, 0x41⟩ ∈ textCells fbcoreParams .normal 122 56 [0x41] 1 :=
  ⟨by decide, by decide,
    mem_glyphReqs.mpr ⟨0, 0, by decide, by decide, 0, by decide, 0, by decide, rfl⟩, by decide +kernel,
    mem_testPatternReqs.mpr ⟨0, by decide, 0, by decide, rfl⟩, by decide⟩

end Sys2Proof.Tests
end

section
/-! The Framebuffer's obligation on CLEAR (40_framebuffer.md R90). -/

namespace Sys2Proof

/-- Each row's `match` value, every operand bit zero, is a legal header word of its own row (30_encoding.md R68, R69). -/
theorem decodeHeader_matchBits (c : Opcode) : decodeHeader c.matchBits = .ok c := by
  cases c <;> decide

/-- Behind a legal header word only the operands are left to assemble (30_encoding.md R69). -/
theorem decode_cons_of_decodeHeader_ok {w : Word} {c : Opcode} (h : decodeHeader w = .ok c) (rest : List Word) :
    decode (w :: rest) = assemble c w rest := by
  rw [decode, h]

end Sys2Proof

namespace Sys2Proof.Machine

/-- Settles O23: the word is CLEAR's row of the opcode table, and CLEAR leaves the zeroed Framebuffer. -/
theorem clearZeroesEveryByte : Obligations.ClearZeroesEveryByte := by
  unfold Obligations.ClearZeroesEveryByte
  constructor
  · intro rest
    exact decode_cons_of_decodeHeader_ok (decodeHeader_matchBits .clear) rest
  · intro s
    exact ⟨Memory.zeroAll s.fb, exec_clear s, Memory.read_zeroAll s.fb⟩

end Sys2Proof.Machine
end

section
/-! The Coordinate Transform's obligations on SETORIENT and on the stated values (41_transform.md R110, R119). -/

namespace Sys2Proof

theorem opField_and (v w : Word) : opField (v &&& w) = opField v &&& opField w :=
  BitVec.extractLsb'_and

/-- No row of the opcode table masks out an opcode bit (30_encoding.md R68). -/
theorem opField_maskBits (c : Opcode) : opField c.maskBits = BitVec.allOnes 8 := by
  cases c <;> decide

theorem opField_matchBits (c : Opcode) : opField c.matchBits = c.toByte := by
  cases c <;> decide

/-- A word that matches a row of the opcode table carries that row's opcode (30_encoding.md R68). -/
theorem opField_of_row {c : Opcode} {w : Word} (h : w &&& c.maskBits = c.matchBits) : opField w = c.toByte :=
  calc opField w = opField w &&& opField c.maskBits := by rw [opField_maskBits, BitVec.and_allOnes]
    _ = opField c.matchBits := by rw [← opField_and, h]
    _ = c.toByte := opField_matchBits c

/-- A word that matches a row of the opcode table is a legal header word of that row (30_encoding.md R68, R69). -/
theorem decodeHeader_of_row {c : Opcode} {w : Word} (h : w &&& c.maskBits = c.matchBits) : decodeHeader w = .ok c := by
  have hop : Opcode.ofByte (opField w) = some c := Opcode.ofByte_eq_some.mpr (opField_of_row h)
  have hsel : c.selects w = true := decide_eq_true h
  simp only [decodeHeader, hop, hsel, if_true]

/-- Each 2-bit value is the value of the Orientation it names (10_state.md R24). -/
theorem Orientation.toBits_ofBits (b : BitVec 2) : (Orientation.ofBits b).toBits = b := by
  revert b
  decide

end Sys2Proof

namespace Sys2Proof.Machine

/-- Settles O28: the words are SETORIENT's row of the opcode table, whose operand is assembled from bits 33:32. -/
theorem setorientSetsOnlyOrient : Obligations.SetorientSetsOnlyOrient := by
  unfold Obligations.SetorientSetsOnlyOrient
  constructor
  · intro w rest hrow
    have hdec : decodeHeader w = .ok .setorient := decodeHeader_of_row hrow
    exact ⟨Orientation.ofBits (w.extractLsb' 32 2), decode_of_legal hdec rest, Orientation.toBits_ofBits _⟩
  · exact exec_setorient

/-- With ROT90's else-branch at 63 its two branches are one formula (41_transform.md R112, R113). -/
theorem transform_rot90 (lx ly : Int) : transform fbcoreParams .rot90 lx ly = (ly, 63 - lx) :=
  congrArg (Prod.mk ly) (ite_self (63 - lx))

theorem transform_rot180 (p : Params) (lx ly : Int) : transform p .rot180 lx ly = (127 - lx, 63 - ly) := rfl

theorem transform_normal (p : Params) (lx ly : Int) : transform p .normal lx ly = (lx, ly) := rfl

/-- The byte address in the integers of 20_memory.md R41. -/
theorem byteIndex_val_int {px py : Int} (h : InRange px py) :
    ((byteIndex px py).val : Int) = px + py / 8 * 128 := by
  rw [byteIndex_val h]
  omega

/-- The bit number in the integers of 20_memory.md R41. -/
theorem bitIndex_int {py : Int} (h : 0 ≤ py) : (bitIndex py : Int) = py % 8 := by
  rw [bitIndex]
  omega

/-- Settles O30: the values of the transform's formulas, and the address of a pixel in range. -/
theorem transformWorkedValues : Obligations.TransformWorkedValues := by
  unfold Obligations.TransformWorkedValues
  refine ⟨transform_rot90 0 0, transform_rot90 63 0, transform_rot180 _ 0 0, ?_⟩
  intro x y hxy
  have hy : 0 ≤ y := by omega
  exact ⟨transform_normal _ x y, byteIndex_val_int hxy, bitIndex_int hy⟩

end Sys2Proof.Machine
end

section
/-! The Pixel Writer's obligations on DRAWPX and on dropped writes (42_pixel_writer.md R130, R133). -/

namespace Sys2Proof.Machine

/-- A `DrawPixel` whose physical point is out of range is dropped (42_pixel_writer.md R133). -/
theorem drawPixel_of_not_inRange {p : Params} {o : Orientation} {lx ly : Int}
    (h : ¬ InRange (transform p o lx ly).1 (transform p o lx ly).2) (m : Memory) (on : Bool) :
    drawPixel p o m lx ly on = m :=
  setPixel_of_not_inRange m on h

/-- Settles O34: what `DrawPixel` does to each pixel, and that it drops a point out of range. -/
theorem drawpxWritesTheTransformedPixel : Obligations.DrawpxWritesTheTransformedPixel := by
  unfold Obligations.DrawpxWritesTheTransformedPixel
  intro x y on s
  refine ⟨drawPixel fbcoreParams s.orient s.fb x y on, exec_drawpx x y on s, ?_, ?_⟩
  · intro px py hp
    exact getPixel_drawPixel fbcoreParams s.orient s.fb x y on hp
  · intro hout
    exact drawPixel_of_not_inRange hout s.fb on

/-- A list of requests does what those of them do whose physical point is in range (42_pixel_writer.md R133). -/
theorem drawAll_filter_inRange (p : Params) (o : Orientation) (m : Memory) (reqs : List PixelReq) :
    drawAll p o m (reqs.filter fun r => decide (InRange (transform p o r.lx r.ly).1 (transform p o r.lx r.ly).2)) =
      drawAll p o m reqs := by
  induction reqs generalizing m with
  | nil => rfl
  | cons r rs ih =>
    by_cases h : InRange (transform p o r.lx r.ly).1 (transform p o r.lx r.ly).2
    · rw [List.filter_cons, if_pos (decide_eq_true h), drawAll_cons, drawAll_cons, ih]
    · rw [List.filter_cons, if_neg (mt of_decide_eq_true h), drawAll_cons, drawPixel_of_not_inRange h, ih]

/-- Settles O35: DRAWPX writes back the Framebuffer it found, and a list of requests loses nothing with its dropped ones,
by induction on the list. -/
theorem droppedPixelsChangeNothing : Obligations.DroppedPixelsChangeNothing := by
  unfold Obligations.DroppedPixelsChangeNothing
  constructor
  · intro x y on s hout
    rw [exec_drawpx, drawPixel_of_not_inRange hout, State.withFb_self]
  · intro o m reqs
    exact (drawAll_filter_inRange fbcoreParams o m reqs).symm

end Sys2Proof.Machine
end

section
/-! The Rasterizer's obligations on the characters of a string: the substitution of codes outside 32..126 and the stop
policy of DRAWTXT (43_rasterizer.md R145, R152). -/

namespace Sys2Proof.Machine

/-! ### Glyph indices -/

theorem glyphIndex_val (code : Byte) :
    (glyphIndex code).val = if 32 ≤ code.toNat ∧ code.toNat ≤ 126 then code.toNat - 32 else 31 := by
  unfold glyphIndex
  split
  · rfl
  · rfl

/-- The index of an unsupported code is that of `?` (43_rasterizer.md R145). -/
theorem glyphIndex_of_unsupported {code : Byte} (h : ¬ (32 ≤ code.toNat ∧ code.toNat ≤ 126)) :
    glyphIndex code = glyphIndex 63 :=
  Fin.ext ((glyphIndex_val code).trans (if_neg h))

theorem glyphIndex_substitute (code : Byte) :
    glyphIndex (if 32 ≤ code.toNat ∧ code.toNat ≤ 126 then code else 63) = glyphIndex code := by
  split
  case isTrue => rfl
  case isFalse h => exact (glyphIndex_of_unsupported h).symm

/-- `DrawChar` looks at its code only through the glyph index. -/
theorem charReqs_congr {code code' : Byte} (h : glyphIndex code = glyphIndex code') (font : FontRom) (x y : Int)
    (on : Bool) (scale : Byte) : charReqs font x y code on scale = charReqs font x y code' on scale := by
  simp only [charReqs, h]

/-! ### The text cursor -/

/-- With the spec's decisions D18 and D19 both tests stand before every character, and a wrap returns to column x. -/
theorem textCells_fbcoreParams (o : Orientation) (x y : Int) (text : List Byte) (scale : Byte) :
    textCells fbcoreParams o x y text scale =
      textCellsFrom (logicalWidth o) (logicalHeight o) scale.toNat x x y text := rfl

section Cursor

variable (lw lh scale col : Int)

@[simp] theorem textCellsFrom_nil (cx cy : Int) : textCellsFrom lw lh scale col cx cy [] = [] := rfl

/-- Whether a cursor stops the text, and where the next character is drawn, depend neither on that character nor on those
after it (43_rasterizer.md R150). -/
theorem textCellsFrom_cons_cases (cx cy : Int) :
    (∀ code rest, textCellsFrom lw lh scale col cx cy (code :: rest) = []) ∨
    ∃ cx' cy', ∀ code rest, textCellsFrom lw lh scale col cx cy (code :: rest) =
      ⟨cx', cy', code⟩ :: textCellsFrom lw lh scale col (cx' + 6 * scale) cy' rest := by
  by_cases hstop : (if cx > lw - 6 * scale then cy + 8 * scale else cy) > lh - 8 * scale
  · exact .inl fun _ _ => if_pos hstop
  · exact .inr ⟨_, _, fun _ _ => if_neg hstop⟩

/-- Other codes in the same string are drawn at the same cursors. -/
theorem textCellsFrom_map (f : Byte → Byte) (cx cy : Int) (text : List Byte) :
    textCellsFrom lw lh scale col cx cy (text.map f) =
      (textCellsFrom lw lh scale col cx cy text).map fun t => { t with code := f t.code } := by
  induction text generalizing cx cy with
  | nil => rfl
  | cons code rest ih =>
    rw [List.map_cons]
    rcases textCellsFrom_cons_cases lw lh scale col cx cy with hstop | ⟨cx', cy', hdraw⟩
    · rw [hstop, hstop, List.map_nil]
    · rw [hdraw, hdraw, List.map_cons, ih]

/-- The characters drawn are the first ones of the string, none skipped (43_rasterizer.md R152). -/
theorem textCellsFrom_codes (cx cy : Int) (text : List Byte) :
    (textCellsFrom lw lh scale col cx cy text).map TextCell.code =
      text.take (textCellsFrom lw lh scale col cx cy text).length := by
  induction text generalizing cx cy with
  | nil => rfl
  | cons code rest ih =>
    rcases textCellsFrom_cons_cases lw lh scale col cx cy with hstop | ⟨cx', cy', hdraw⟩
    · rw [hstop, List.map_nil, List.length_nil, List.take_zero]
    · rw [hdraw, List.map_cons, List.length_cons, List.take_succ_cons, ih]

/-- A string cut after `n` characters draws the first `n` of the cells. -/
theorem textCellsFrom_take (n : Nat) (cx cy : Int) (text : List Byte) :
    textCellsFrom lw lh scale col cx cy (text.take n) = (textCellsFrom lw lh scale col cx cy text).take n := by
  induction text generalizing n cx cy with
  | nil => rw [List.take_nil, textCellsFrom_nil, List.take_nil]
  | cons code rest ih =>
    cases n with
    | zero => rw [List.take_zero, List.take_zero, textCellsFrom_nil]
    | succ n =>
      rw [List.take_succ_cons]
      rcases textCellsFrom_cons_cases lw lh scale col cx cy with hstop | ⟨cx', cy', hdraw⟩
      · rw [hstop, hstop, List.take_nil]
      · rw [hdraw, hdraw, List.take_succ_cons, ih]

/-- A string that stops before its end draws the same, whatever follows it (43_rasterizer.md R152). -/
theorem textCellsFrom_append_of_stopped (cx cy : Int) (text rest : List Byte)
    (h : (textCellsFrom lw lh scale col cx cy text).length < text.length) :
    textCellsFrom lw lh scale col cx cy (text ++ rest) = textCellsFrom lw lh scale col cx cy text := by
  induction text generalizing cx cy with
  | nil => exact absurd h (Nat.not_lt_zero _)
  | cons code text ih =>
    rw [List.cons_append]
    rcases textCellsFrom_cons_cases lw lh scale col cx cy with hstop | ⟨cx', cy', hdraw⟩
    · rw [hstop, hstop]
    · rw [hdraw, List.length_cons, List.length_cons] at h
      rw [hdraw, hdraw, ih _ _ (Nat.lt_of_succ_lt_succ h)]

end Cursor

/-! ### DRAWTXT -/

/-- Codes of the same glyph index at each place of a string give the same requests. -/
theorem textReqs_map {f : Byte → Byte} (hf : ∀ code, glyphIndex (f code) = glyphIndex code) (font : FontRom)
    (o : Orientation) (x y : Int) (text : List Byte) (on : Bool) (scale : Byte) :
    textReqs fbcoreParams font o x y (text.map f) on scale = textReqs fbcoreParams font o x y text on scale := by
  rw [textReqs, textReqs, textCells_fbcoreParams, textCells_fbcoreParams, textCellsFrom_map, List.flatMap_map]
  simp only [charReqs_congr (hf _)]

/-- DRAWTXT looks at its string only through the characters it draws and their cursors. -/
theorem exec_drawtxt_congr {x y : Int} {text text' : List Byte} {scale : Byte} {s : State}
    (h : textCells fbcoreParams s.orient x y text scale = textCells fbcoreParams s.orient x y text' scale) (on : Bool) :
    exec (.drawtxt x y text on scale) s = exec (.drawtxt x y text' on scale) s := by
  rw [exec_drawtxt, exec_drawtxt, textReqs, textReqs, h]

/-- Settles O40: an unsupported code has the glyph index of `?`, and the cursors of a string do not depend on its
codes. -/
theorem unsupportedCodesDrawQuestionMark : Obligations.UnsupportedCodesDrawQuestionMark := by
  unfold Obligations.UnsupportedCodesDrawQuestionMark
  refine ⟨glyphIndex_val, ?_, ?_⟩
  · intro x y code on scale s h
    rw [exec_drawch, exec_drawch, charReqs_congr (glyphIndex_of_unsupported h)]
  · intro x y text on scale s
    rw [exec_drawtxt, exec_drawtxt, textReqs_map glyphIndex_substitute]

/-- Settles O45: the characters drawn are the first ones of the string; cutting the string to them draws all of them, and
after a stop the cells stay the same under any continuation. -/
theorem textStopsAndDoesNotSkip : Obligations.TextStopsAndDoesNotSkip := by
  unfold Obligations.TextStopsAndDoesNotSkip
  intro x y text on scale s
  refine ⟨⟨_, exec_drawtxt x y text on scale s⟩, textCellsFrom_codes _ _ _ _ x y text, fun hstop rest => ⟨?_, ?_⟩⟩
  · exact exec_drawtxt_congr ((textCellsFrom_take _ _ _ _ _ x y text).trans List.take_length) on
  · exact exec_drawtxt_congr (textCellsFrom_append_of_stopped _ _ _ _ x y text rest hstop) on

end Sys2Proof.Machine
end

section
/-! The rows of the opcode table and the order of decoding a header word (30_encoding.md R67 to R69, R71). -/

namespace Sys2Proof

open Machine (decode_of_legal decode_of_illegal)

/-! ### Opcodes -/

theorem Opcode.ofByte_eq_none {b : Byte} : Opcode.ofByte b = none ↔ ¬ (1 ≤ b.toNat ∧ b.toNat ≤ 8) := by
  revert b
  decide

@[simp] theorem Opcode.ofByte_toByte (c : Opcode) : Opcode.ofByte c.toByte = some c :=
  Opcode.ofByte_eq_some.mpr rfl

theorem Opcode.toByte_inj {c c' : Opcode} (h : c.toByte = c'.toByte) : c = c' := by
  have hof : Opcode.ofByte c.toByte = some c' := Opcode.ofByte_eq_some.mpr h
  rw [Opcode.ofByte_toByte] at hof
  exact Option.some.inj hof

theorem exists_toByte_of_range {b : Byte} (h : 1 ≤ b.toNat ∧ b.toNat ≤ 8) : ∃ c : Opcode, b = c.toByte := by
  cases hof : Opcode.ofByte b with
  | none => exact absurd h (Opcode.ofByte_eq_none.mp hof)
  | some c => exact ⟨c, Opcode.ofByte_eq_some.mp hof⟩

/-! ### One header word -/

theorem decodeHeader_of_reserved {w : Word} (h : ¬ (1 ≤ (opField w).toNat ∧ (opField w).toNat ≤ 8)) :
    decodeHeader w = .error .reservedOpcode := by
  rw [decodeHeader, Opcode.ofByte_eq_none.mpr h]

theorem decodeHeader_of_not_row {w : Word} {c : Opcode} (hop : opField w = c.toByte)
    (h : w &&& c.maskBits ≠ c.matchBits) : decodeHeader w = .error .mustBeZero := by
  have hsel : c.selects w = false := decide_eq_false h
  simp only [decodeHeader, hop, Opcode.ofByte_toByte, hsel, Bool.false_eq_true, if_false]

/-- The legal header words of a command are the words of its row (30_encoding.md R68). -/
theorem decodeHeader_eq_ok {w : Word} {c : Opcode} : decodeHeader w = .ok c ↔ w &&& c.maskBits = c.matchBits := by
  refine ⟨fun h => ?_, decodeHeader_of_row⟩
  by_cases hr : 1 ≤ (opField w).toNat ∧ (opField w).toNat ≤ 8
  · obtain ⟨c', hop⟩ := exists_toByte_of_range hr
    by_cases hrow : w &&& c'.maskBits = c'.matchBits
    · rw [decodeHeader_of_row hrow] at h
      exact Except.ok.inj h ▸ hrow
    · rw [decodeHeader_of_not_row hop hrow] at h
      cases h
  · rw [decodeHeader_of_reserved hr] at h
    cases h

/-- Operand assembly raises nothing (30_encoding.md R69 step 3). -/
theorem assemble_ne_illegal (c : Opcode) (w : Word) (rest : List Word) (cause : IllegalCause) :
    assemble c w rest ≠ .illegal cause := by
  cases c with
  | drawtxt =>
    unfold assemble
    by_cases hlen : rest.length < payloadCount (argField w).toNat
    · simp only [hlen, if_true, ne_eq, reduceCtorEq, not_false_eq_true]
    · simp only [hlen, if_false, ne_eq, reduceCtorEq, not_false_eq_true]
  | clear | setorient | pset | drawpx | testpat | drawch | snap => exact Decoded.noConfusion

/-- Settles O4: the opcode is looked up first, then its row tested; assembly behind a legal header raises nothing. -/
theorem headerIsLegalOrIllegalByCause : Obligations.HeaderIsLegalOrIllegalByCause := by
  unfold Obligations.HeaderIsLegalOrIllegalByCause
  intro w rest
  refine ⟨fun h => ?_, fun c hop hrow => ?_, fun c _ hrow cause => ?_, exists_toByte_of_range⟩
  · exact decode_of_illegal (decodeHeader_of_reserved h) rest
  · exact decode_of_illegal (decodeHeader_of_not_row hop hrow) rest
  · rw [decode_of_legal (decodeHeader_of_row hrow)]
    exact assemble_ne_illegal c w rest cause

/-- Settles O5: a row fixes the opcode byte, and no two rows have the same. -/
theorem opcodeRowsAreDisjoint : Obligations.OpcodeRowsAreDisjoint := by
  unfold Obligations.OpcodeRowsAreDisjoint
  intro w c c' hrow
  refine ⟨opField_of_row hrow, fun hrow' => Opcode.toByte_inj ?_⟩
  rw [← opField_of_row hrow, opField_of_row hrow']

/-- Settles O1: each worked word is decoded by evaluation. -/
theorem specWordsDecodeAsTheSpecSays : Obligations.SpecWordsDecodeAsTheSpecSays := by
  unfold Obligations.SpecWordsDecodeAsTheSpecSays
  decide

end Sys2Proof
end

section
/-! The DRAWTXT payload: what packing writes, unpacking reads (30_encoding.md R70, R174). -/

namespace Sys2Proof

open Machine (decode_of_legal)

/-! ### Packing and unpacking -/

/-- Bit `i` of a payload word is bit `i mod 8` of its character `i div 8`. -/
theorem getLsbD_packWord (s : Nat → Byte) (i : Nat) (hi : i < 64) :
    (packWord s).getLsbD i = (s (i / 8)).getLsbD (i % 8) := by
  unfold packWord
  obtain ⟨q, r, hr, rfl⟩ : ∃ q r, r < 8 ∧ i = 8 * q + r := ⟨i / 8, i % 8, by omega, by omega⟩
  have hq : q < 8 := by omega
  have hdiv : (8 * q + r) / 8 = q := by omega
  have hmod : (8 * q + r) % 8 = r := by omega
  rw [hdiv, hmod]
  simp only [BitVec.getLsbD_append, Nat.sub_sub]
  interval_cases q <;> grind

theorem extractLsb'_packWord (s : Nat → Byte) {j : Nat} (hj : j < 8) :
    (packWord s).extractLsb' (8 * j) 8 = s j := by
  apply BitVec.eq_of_getLsbD_eq
  intro i hi
  have hdiv : (8 * j + i) / 8 = j := by omega
  have hmod : (8 * j + i) % 8 = i := by omega
  rw [BitVec.getLsbD_extractLsb', getLsbD_packWord s _ (by omega), hdiv, hmod, decide_eq_true hi, Bool.true_and]

@[simp] theorem packText_length (text : List Byte) : (packText text).length = payloadCount text.length := by
  rw [packText, List.length_map, List.length_range]

/-- Reading character `i` of packed words, whatever words follow. -/
theorem payloadChar_packText (text : List Byte) (rest : List Word) {i : Nat} (hi : i < text.length) :
    payloadChar (packText text ++ rest) i = text[i] := by
  have hk : i / 8 < payloadCount text.length := by
    unfold payloadCount
    omega
  have hword : (packText text ++ rest).getD (i / 8) 0 = packWord fun j => text.getD (8 * (i / 8) + j) 0 := by
    rw [List.getD_append _ _ _ _ (by rwa [packText_length]), packText,
      List.getD_eq_getElem _ _ (by simpa using hk), List.getElem_map, List.getElem_range]
  have hidx : 8 * (i / 8) + i % 8 = i := by omega
  rw [payloadChar, hword, extractLsb'_packWord _ (Nat.mod_lt _ (by decide)), hidx, List.getD_eq_getElem _ _ hi]

@[simp] theorem unpackText_length (len : Nat) (p : List Word) : (unpackText len p).length = len := by
  rw [unpackText, List.length_map, List.length_range]

theorem unpackText_getElem (len : Nat) (p : List Word) (i : Nat) (hi : i < (unpackText len p).length) :
    (unpackText len p)[i] = payloadChar p i := by
  simp only [unpackText, List.getElem_map, List.getElem_range]

theorem unpackText_packText (text : List Byte) (rest : List Word) :
    unpackText text.length (packText text ++ rest) = text := by
  apply List.ext_getElem (unpackText_length _ _)
  intro i hi hi'
  rw [unpackText_getElem, payloadChar_packText text rest hi']

/-- A character read from the payload lies in a word that is there. -/
theorem payloadChar_eq_of_lt {p : List Word} {i : Nat} (h : i / 8 < p.length) :
    payloadChar p i = (p[i / 8]).extractLsb' (8 * (i % 8)) 8 := by
  rw [payloadChar, List.getD_eq_getElem _ _ h]

/-! ### DRAWTXT's decoding -/

theorem decode_drawtxt_of_short {w : Word} {rest : List Word} (hw : decodeHeader w = .ok .drawtxt)
    (h : rest.length < payloadCount (argField w).toNat) : decode (w :: rest) = .incomplete := by
  rw [decode_of_legal hw, assemble, if_pos h]

theorem decode_drawtxt_of_complete {w : Word} {rest : List Word} (hw : decodeHeader w = .ok .drawtxt)
    (h : payloadCount (argField w).toNat ≤ rest.length) :
    decode (w :: rest) =
      .command (.drawtxt (xField w) (yField w) (unpackText (argField w).toNat rest) (onField w) (scaleField w))
        (1 + payloadCount (argField w).toNat) := by
  rw [decode_of_legal hw, assemble, if_neg (Nat.not_lt.mpr h)]

/-- Settles O6: the payload is as many words as the header asks for, and the string is read from them. -/
theorem drawtxtTakesItsPayloadWords : Obligations.DrawtxtTakesItsPayloadWords := by
  unfold Obligations.DrawtxtTakesItsPayloadWords
  intro w rest hrow
  have hw : decodeHeader w = .ok .drawtxt := decodeHeader_of_row hrow
  refine ⟨decode_drawtxt_of_short hw, fun hlen => ?_⟩
  refine ⟨unpackText (argField w).toNat rest, unpackText_length _ _, fun i hi => ?_, decode_drawtxt_of_complete hw hlen⟩
  rw [unpackText_length] at hi
  have hword : i / 8 < rest.length := by omega
  refine ⟨rest[i / 8], List.getElem?_eq_getElem hword, ?_⟩
  rw [List.getElem?_eq_getElem (by rwa [unpackText_length]), unpackText_getElem, payloadChar_eq_of_lt hword]

end Sys2Proof
end

section
/-! The two directions of the round trip between instructions and their words (30_encoding.md sections 1 to 4). -/

namespace Sys2Proof

open Machine (decode_of_legal decode_of_illegal)

/-! ### The rows of the opcode table, field by field -/

/-- The fields behind `rsv` that must be zero in a header word of the row (30_encoding.md R68). -/
def Opcode.UnusedZero (c : Opcode) (on : BitVec 1) (scale arg : Byte) (x y : BitVec 16) : Prop :=
  match c with
  | .clear | .testpat | .snap => on = 0 ∧ scale = 0 ∧ arg = 0 ∧ x = 0 ∧ y = 0
  | .setorient => on = 0 ∧ scale = 0 ∧ arg &&& 0xFC = 0 ∧ x = 0 ∧ y = 0
  | .pset | .drawpx => scale = 0 ∧ arg = 0
  | .drawch | .drawtxt => True

/-- A word is in a row of the opcode table when it has the row's opcode and zeros where the row asks for them. -/
theorem row_wordOfFields_iff (c : Opcode) (op : Byte) (rsv : BitVec 7) (on : BitVec 1) (scale arg : Byte)
    (x y : BitVec 16) :
    wordOfFields op rsv on scale arg x y &&& c.maskBits = c.matchBits ↔
      op = c.toByte ∧ rsv = 0 ∧ c.UnusedZero on scale arg x y := by
  have h8 (b : Byte) : b &&& 0xFF = b := BitVec.and_allOnes
  have h7 (b : BitVec 7) : b &&& 0x7F = b := BitVec.and_allOnes
  have h1 (b : BitVec 1) : b &&& 1 = b := BitVec.and_allOnes
  have h16 (b : BitVec 16) : b &&& 0xFFFF = b := BitVec.and_allOnes
  have h0 (n : Nat) (b : BitVec n) : b &&& 0 = 0 := BitVec.and_zero
  rw [maskBits_eq, matchBits_eq]
  cases c <;> simp only [and_wordOfFields, wordOfFields_inj, h8, h7, h1, h16, h0, Opcode.UnusedZero, true_and, and_true]

/-- A header word the encoder builds with its unused fields zero is decoded by assembling its own command. -/
theorem decode_headerWord {c : Opcode} {on : Bool} {scale arg : Byte} {x y : Int}
    (h : c.UnusedZero (BitVec.ofBool on) scale arg (BitVec.ofInt 16 x) (BitVec.ofInt 16 y)) (rest : List Word) :
    decode (headerWord c on scale arg x y :: rest) = assemble c (headerWord c on scale arg x y) rest := by
  refine decode_of_legal (decodeHeader_of_row ?_) rest
  rw [headerWord_eq, row_wordOfFields_iff]
  exact ⟨rfl, rfl, h⟩

/-! ### Operands -/

/-- A coordinate in range survives its 16-bit field (30_encoding.md R62). -/
theorem toInt_ofInt_of_coordOk {v : Int} (h : coordOk v = true) : (BitVec.ofInt 16 v).toInt = v := by
  simp only [coordOk, Bool.and_eq_true, decide_eq_true_eq] at h
  rw [BitVec.toInt_ofInt]
  exact Int.bmod_eq_of_le (by omega) (by omega)

theorem coordOk_toInt (b : BitVec 16) : coordOk b.toInt = true := by
  have hlo := BitVec.le_toInt b
  have hhi := BitVec.toInt_lt (x := b)
  simp only [coordOk, Bool.and_eq_true, decide_eq_true_eq]
  omega

theorem toNat_ofNat_of_textOk {text : List Byte} (h : textOk text = true) :
    (BitVec.ofNat 8 text.length).toNat = text.length := by
  have hlen : text.length ≤ 255 := of_decide_eq_true h
  rw [BitVec.toNat_ofNat]
  omega

section HeaderFields

variable {c : Opcode} {on : Bool} {scale arg : Byte} {x y : Int}

@[simp] theorem onField_headerWord : onField (headerWord c on scale arg x y) = on := by
  rw [headerWord_eq, onField_wordOfFields]
  cases on <;> rfl

@[simp] theorem scaleField_headerWord : scaleField (headerWord c on scale arg x y) = scale := by
  rw [headerWord_eq, scaleField_wordOfFields]

@[simp] theorem argField_headerWord : argField (headerWord c on scale arg x y) = arg := by
  rw [headerWord_eq, argField_wordOfFields]

theorem xField_headerWord (h : coordOk x = true) : xField (headerWord c on scale arg x y) = x := by
  rw [headerWord_eq, xField_wordOfFields, toInt_ofInt_of_coordOk h]

theorem yField_headerWord (h : coordOk y = true) : yField (headerWord c on scale arg x y) = y := by
  rw [headerWord_eq, yField_wordOfFields, toInt_ofInt_of_coordOk h]

end HeaderFields

/-- SETORIENT's operand is the low two bits of `arg` (30_encoding.md R63). -/
theorem extractLsb'_32_2 (w : Word) : w.extractLsb' 32 2 = (argField w).extractLsb' 0 2 := by
  apply BitVec.eq_of_getLsbD_eq
  intro i hi
  simp only [argField, BitVec.getLsbD_extractLsb']
  grind

theorem Orientation.ofBits_extract (o : Orientation) : Orientation.ofBits ((0#6 ++ o.toBits).extractLsb' 0 2) = o := by
  cases o <;> decide

theorem Orientation.unused_bits (o : Orientation) : (0#6 ++ o.toBits) &&& 0xFC = 0 := by
  cases o <;> decide

/-! ### Encoding, then decoding -/

/-- Settles O2: the encoder's header word is in its command's row, and each operand is read back from its field. -/
theorem decodeOfEncodeIsTheInstruction : Obligations.DecodeOfEncodeIsTheInstruction := by
  unfold Obligations.DecodeOfEncodeIsTheInstruction
  intro i rest hwf
  cases i with
  | clear | testpat | snap =>
    rw [encode, List.singleton_append, decode_headerWord, assemble, List.length_singleton]
    exact ⟨rfl, rfl, rfl, rfl, rfl⟩
  | setorient o =>
    rw [encode, List.singleton_append, decode_headerWord, assemble, extractLsb'_32_2, argField_headerWord,
      Orientation.ofBits_extract, List.length_singleton]
    exact ⟨rfl, rfl, o.unused_bits, rfl, rfl⟩
  | pset x y on | drawpx x y on =>
    obtain ⟨hx, hy⟩ := (Bool.and_eq_true _ _).mp hwf
    rw [encode, List.singleton_append, decode_headerWord, assemble, onField_headerWord, xField_headerWord hx,
      yField_headerWord hy, List.length_singleton]
    exact ⟨rfl, rfl⟩
  | drawch x y code on scale =>
    obtain ⟨hx, hy⟩ := (Bool.and_eq_true _ _).mp hwf
    rw [encode, List.singleton_append, decode_headerWord, assemble, onField_headerWord, scaleField_headerWord,
      argField_headerWord, xField_headerWord hx, yField_headerWord hy, List.length_singleton]
    exact trivial
  | drawtxt x y text on scale =>
    obtain ⟨hxy, htext⟩ := (Bool.and_eq_true _ _).mp hwf
    obtain ⟨hx, hy⟩ := (Bool.and_eq_true _ _).mp hxy
    have hlen : ¬ (packText text ++ rest).length < payloadCount text.length := by
      rw [List.length_append, packText_length]
      omega
    rw [encode, List.cons_append, decode_headerWord, assemble, onField_headerWord, scaleField_headerWord,
      argField_headerWord, xField_headerWord hx, yField_headerWord hy,
      toNat_ofNat_of_textOk htext, if_neg hlen, unpackText_packText, List.length_cons, packText_length, Nat.add_comm]
    exact trivial

/-! ### Decoding, then encoding -/

/-- A word of a row is the header word of its own fields. -/
theorem eq_headerWord_of_row {c : Opcode} {w : Word} (h : w &&& c.maskBits = c.matchBits) :
    w = headerWord c (onField w) (scaleField w) (argField w) (xField w) (yField w) := by
  obtain ⟨op, rsv, on, scale, arg, x, y, rfl⟩ := exists_wordOfFields w
  obtain ⟨rfl, rfl, -⟩ := (row_wordOfFields_iff c op rsv on scale arg x y).mp h
  have hon : BitVec.ofBool (on.getLsbD 0) = on := by
    clear h
    revert on
    decide
  simp only [onField_wordOfFields, scaleField_wordOfFields, argField_wordOfFields, xField_wordOfFields,
    yField_wordOfFields, headerWord_eq, hon, BitVec.ofInt_toInt]

/-- In a word of a row the unused fields are zero. -/
theorem unusedZero_of_row {c : Opcode} {w : Word} (h : w &&& c.maskBits = c.matchBits) :
    c.UnusedZero (BitVec.ofBool (onField w)) (scaleField w) (argField w) (BitVec.ofInt 16 (xField w))
      (BitVec.ofInt 16 (yField w)) := by
  rw [eq_headerWord_of_row h, headerWord_eq, row_wordOfFields_iff] at h
  exact h.2.2

/-- An `arg` whose unused bits are zero is the operand of SETORIENT it carries. -/
theorem arg_of_unused_bits {arg : Byte} (h : arg &&& 0xFC = 0) :
    0#6 ++ (Orientation.ofBits (arg.extractLsb' 0 2)).toBits = arg := by
  rw [Orientation.toBits_ofBits]
  revert arg
  decide

/-- What is assembled behind a header word of a row encodes to that word (30_encoding.md R69). -/
theorem encode_head_of_assemble {c : Opcode} {w : Word} {rest : List Word} {i : Instr} {n : Nat}
    (hrow : w &&& c.maskBits = c.matchBits) (h : assemble c w rest = .command i n) : (encode i).head? = some w := by
  have hw := eq_headerWord_of_row hrow
  have hzero := unusedZero_of_row hrow
  rw [headerWord_eq] at hw
  cases c with
  | clear | testpat | snap =>
    obtain ⟨rfl, rfl⟩ := Decoded.command.inj h
    obtain ⟨hon, hscale, harg, hx, hy⟩ := hzero
    rw [hon, hscale, harg, hx, hy] at hw
    exact congrArg some hw.symm
  | setorient =>
    obtain ⟨rfl, rfl⟩ := Decoded.command.inj h
    obtain ⟨hon, hscale, harg, hx, hy⟩ := hzero
    rw [hon, hscale, hx, hy] at hw
    rw [encode, List.head?_cons, extractLsb'_32_2, arg_of_unused_bits harg]
    exact congrArg some hw.symm
  | pset | drawpx =>
    obtain ⟨rfl, rfl⟩ := Decoded.command.inj h
    obtain ⟨hscale, harg⟩ := hzero
    rw [hscale, harg] at hw
    exact congrArg some hw.symm
  | drawch =>
    obtain ⟨rfl, rfl⟩ := Decoded.command.inj h
    exact congrArg some hw.symm
  | drawtxt =>
    by_cases hlen : rest.length < payloadCount (argField w).toNat
    · rw [assemble, if_pos hlen] at h
      cases h
    · rw [assemble, if_neg hlen] at h
      obtain ⟨rfl, rfl⟩ := Decoded.command.inj h
      rw [encode, List.head?_cons, unpackText_length, BitVec.ofNat_toNat, BitVec.setWidth_eq]
      exact congrArg some hw.symm

/-- What is assembled is well formed, and takes as many words as its encoding has, all of them there. -/
theorem wellFormed_and_length_of_assemble {c : Opcode} {w : Word} {rest : List Word} {i : Instr} {n : Nat}
    (h : assemble c w rest = .command i n) :
    i.wellFormed = true ∧ n = (encode i).length ∧ n ≤ rest.length + 1 := by
  have hx : coordOk (xField w) = true := coordOk_toInt _
  have hy : coordOk (yField w) = true := coordOk_toInt _
  cases c with
  | clear | testpat | snap | setorient =>
    obtain ⟨rfl, rfl⟩ := Decoded.command.inj h
    exact ⟨rfl, rfl, by omega⟩
  | pset | drawpx | drawch =>
    obtain ⟨rfl, rfl⟩ := Decoded.command.inj h
    exact ⟨(Bool.and_eq_true _ _).mpr ⟨hx, hy⟩, rfl, by omega⟩
  | drawtxt =>
    by_cases hlen : rest.length < payloadCount (argField w).toNat
    · rw [assemble, if_pos hlen] at h
      cases h
    · rw [assemble, if_neg hlen] at h
      obtain ⟨rfl, rfl⟩ := Decoded.command.inj h
      have htext : textOk (unpackText (argField w).toNat rest) = true := by
        have hlt := (argField w).isLt
        rw [textOk, unpackText_length]
        exact decide_eq_true (by omega)
      refine ⟨?_, ?_, by omega⟩
      · exact (Bool.and_eq_true _ _).mpr ⟨(Bool.and_eq_true _ _).mpr ⟨hx, hy⟩, htext⟩
      · rw [encode, List.length_cons, packText_length, unpackText_length, Nat.add_comm]

/-- The string of an assembled DRAWTXT is read from the words behind its header. -/
theorem text_of_assemble {c : Opcode} {w : Word} {rest : List Word} {x y : Int} {text : List Byte} {on : Bool}
    {scale : Byte} {n : Nat} (h : assemble c w rest = .command (.drawtxt x y text on scale) n) :
    text = unpackText (argField w).toNat rest := by
  cases c with
  | drawtxt =>
    by_cases hlen : rest.length < payloadCount (argField w).toNat
    · rw [assemble, if_pos hlen] at h
      cases h
    · rw [assemble, if_neg hlen] at h
      injection h with hi _
      injection hi with _ _ htext _ _
      exact htext.symm
  | clear | setorient | pset | drawpx | testpat | drawch | snap => cases h

/-- Words that decode to an instruction begin with a header word in some row, from which it is assembled. -/
theorem exists_assemble_of_decode {ws : List Word} {i : Instr} {n : Nat} (h : decode ws = .command i n) :
    ∃ w rest c, ws = w :: rest ∧ w &&& c.maskBits = c.matchBits ∧ assemble c w rest = .command i n := by
  cases ws with
  | nil => cases h
  | cons w rest =>
    cases hw : decodeHeader w with
    | error c =>
      rw [decode_of_illegal hw] at h
      cases h
    | ok c =>
      rw [decode_of_legal hw] at h
      exact ⟨w, rest, c, rfl, decodeHeader_eq_ok.mp hw, h⟩

/-- Settles O3: the header word is the one the encoder builds from the assembled operands, and a character of the string
is read alike from the words given and from the packed ones. -/
theorem everyDecodedWordIsTheEncoding : Obligations.EveryDecodedWordIsTheEncoding := by
  unfold Obligations.EveryDecodedWordIsTheEncoding
  intro ws i n h
  obtain ⟨w, rest, c, rfl, hrow, hasm⟩ := exists_assemble_of_decode h
  obtain ⟨hwf, hn, hle⟩ := wellFormed_and_length_of_assemble hasm
  refine ⟨hwf, hn, hle, (encode_head_of_assemble hrow hasm).symm, ?_⟩
  rintro x y text on scale rfl k hk
  have hpacked : payloadChar (packText text) k = text[k] := by
    simpa using payloadChar_packText text [] hk
  obtain rfl := text_of_assemble hasm
  rw [encode, List.tail_cons, List.tail_cons, hpacked, unpackText_getElem]

end Sys2Proof
end

section
/-! The step, case by case, and the obligations that follow from one case (60_exceptions.md;
70_reset_and_hazards.md). -/

namespace Sys2Proof.Machine

/-! ### The equations of the step -/

section StepEquations

variable {s : State}

theorem step_of_rst (hr : s.rst = true) : step s = .next (takeReset s) := by
  rw [step, if_pos hr]

theorem step_of_noWord (hr : s.rst = false) (hp : s.port = []) : step s = .next s := by
  simp only [step, hr, hp, Bool.false_eq_true, if_false]

theorem step_of_fault {w : Word} {rest : List Word} (hr : s.rst = false) (hf : s.fault = true)
    (hp : s.port = w :: rest) : step s = .next (discardWord s) := by
  simp only [step, hr, hp, hf, Bool.false_eq_true, if_false, if_true]

theorem step_of_command {i : Instr} {n : Nat} (hr : s.rst = false) (hf : s.fault = false)
    (hd : decode s.port = .command i n) : step s = exec i (s.consume n) := by
  cases hp : s.port with
  | nil => rw [hp] at hd; cases hd
  | cons w rest =>
    rw [hp] at hd
    simp only [step, hr, hp, hf, hd, Bool.false_eq_true, if_false]

theorem step_of_illegal {c : IllegalCause} (hr : s.rst = false) (hf : s.fault = false)
    (hd : decode s.port = .illegal c) : step s = .next (takeIllegal s c) := by
  cases hp : s.port with
  | nil => rw [hp] at hd; cases hd
  | cons w rest =>
    rw [hp] at hd
    simp only [step, hr, hp, hf, hd, Bool.false_eq_true, if_false]

theorem step_of_incomplete (hr : s.rst = false) (hf : s.fault = false) (hd : decode s.port = .incomplete) :
    step s = .next s := by
  cases hp : s.port with
  | nil => exact step_of_noWord hr hp
  | cons w rest =>
    rw [hp] at hd
    simp only [step, hr, hp, hf, hd, Bool.false_eq_true, if_false]

end StepEquations

/-! ### The status outputs -/

theorem cmdReady_eq_true (s : State) : s.cmdReady = true := by
  rw [State.cmdReady, State.busy, Bool.not_or_self]

theorem busy_of_incomplete {s : State} (hf : s.fault = false) (hd : decode s.port = .incomplete) : s.busy = true := by
  rw [State.busy, State.awaitsPayload, hf, hd, Bool.not_false, Bool.true_and, decide_eq_true rfl]

theorem busy_of_noWord {s : State} (hp : s.port = []) : s.busy = false := by
  rw [State.busy, State.awaitsPayload, hp, decode_nil, decide_eq_false Decoded.noConfusion, Bool.and_false]

/-! ### Commands, faults, waiting and reset -/

/-- Settles O7: the update that takes the words is `State.consume`. -/
theorem stepRunsTheDecodedCommand : Obligations.StepRunsTheDecodedCommand := by
  unfold Obligations.StepRunsTheDecodedCommand
  intro s i n hr hf hd
  exact step_of_command hr hf hd

theorem takeIllegal_eq {s : State} {w : Word} {rest : List Word} (hp : s.port = w :: rest) (c : IllegalCause) :
    takeIllegal s c = { s with port := rest, cp := s.cp + 1, fault := true, fcode := c.code } := by
  simp only [takeIllegal, State.raiseIllegal, State.consume, hp, List.drop_succ_cons, List.drop_zero]

theorem discardWord_eq {s : State} {w : Word} {rest : List Word} (hp : s.port = w :: rest) :
    discardWord s = { s with port := rest, cp := s.cp + 1 } := by
  simp only [discardWord, State.consume, hp, List.drop_succ_cons, List.drop_zero]

/-- Settles O8: each cause of an illegal header word leads to `takeIllegal` with that cause. -/
theorem illegalWordEntersTheFaultState : Obligations.IllegalWordEntersTheFaultState := by
  unfold Obligations.IllegalWordEntersTheFaultState
  intro s w rest hr hf hp
  refine ⟨fun hop => ?_, fun c hop hrow => ?_⟩
  · have hd : decode s.port = .illegal .reservedOpcode := by
      rw [hp, decode_of_illegal (decodeHeader_of_reserved hop)]
    rw [step_of_illegal hr hf hd, takeIllegal_eq hp]
    rfl
  · have hd : decode s.port = .illegal .mustBeZero := by
      rw [hp, decode_of_illegal (decodeHeader_of_not_row hop hrow)]
    rw [step_of_illegal hr hf hd, takeIllegal_eq hp]
    rfl

/-- Settles O9: the step discards the word, and `cmd_ready` is 1 in every state between two steps. -/
theorem faultStateDiscardsAWord : Obligations.FaultStateDiscardsAWord := by
  unfold Obligations.FaultStateDiscardsAWord
  intro s w rest hr hf hp
  exact ⟨by rw [step_of_fault hr hf hp, discardWord_eq hp], cmdReady_eq_true s⟩

theorem run_succ_of_step {s t : State} (h : step s = .next t) (k : Nat) : run (k + 1) s = run k t := by
  rw [run, h]

/-- Settles O10: by induction on the number of steps; each discards a word or finds none. -/
theorem faultStateLastsUntilReset : Obligations.FaultStateLastsUntilReset := by
  unfold Obligations.FaultStateLastsUntilReset
  intro k
  induction k with
  | zero =>
    intro s _ _
    rw [run, List.drop_zero, Nat.zero_min, Nat.add_zero]
  | succ k ih =>
    intro s hr hf
    cases hp : s.port with
    | nil =>
      rw [run_succ_of_step (step_of_noWord hr hp), ih s hr hf, hp, List.drop_nil, List.drop_nil, List.length_nil,
        Nat.min_zero, Nat.min_zero]
    | cons w rest =>
      rw [run_succ_of_step (step_of_fault hr hf hp), discardWord_eq hp,
        ih { s with port := rest, cp := s.cp + 1 } hr hf, List.drop_succ_cons, List.length_cons,
        Nat.succ_min_succ, Nat.add_assoc, Nat.add_comm 1]

/-- Settles O11: the header is legal and its payload short, so the decoder finds the command incomplete. -/
theorem drawtxtWaitsForItsPayload : Obligations.DrawtxtWaitsForItsPayload := by
  unfold Obligations.DrawtxtWaitsForItsPayload
  intro s w rest hr hf hp hrow hlen
  have hd : decode s.port = .incomplete := by
    rw [hp, decode_drawtxt_of_short (decodeHeader_of_row hrow) hlen]
  exact ⟨step_of_incomplete hr hf hd, busy_of_incomplete hf hd, cmdReady_eq_true s⟩

/-- Settles O12: a state after reset has an empty port and a released reset line. -/
theorem withoutAWordNothingHappens : Obligations.WithoutAWordNothingHappens := by
  unfold Obligations.WithoutAWordNothingHappens
  refine ⟨fun s hr hp => ⟨step_of_noWord hr hp, busy_of_noWord hp⟩, fun fb o font => ?_⟩
  exact step_of_noWord (State.resetWith_rst fb o font) (State.resetWith_port fb o font)

/-- Settles O13: the next state is `takeReset s`, field by field. -/
theorem sampledResetStartsANewRun : Obligations.SampledResetStartsANewRun := by
  unfold Obligations.SampledResetStartsANewRun
  intro s hr
  exact ⟨takeReset s, step_of_rst hr, takeReset_fault s, takeReset_fcode s, takeReset_out s, takeReset_port s,
    takeReset_cp s, takeReset_rst s, takeReset_font s, wf_takeReset s⟩

/-- Settles O14: the fields of `State.resetWith`, of which `State.reset` is one. -/
theorem resetValues : Obligations.ResetValues := by
  unfold Obligations.ResetValues
  refine ⟨fun fb o font => ?_, by rw [State.reset]⟩
  exact ⟨State.resetWith_fault fb o font, State.resetWith_fcode fb o font, State.resetWith_out fb o font,
    State.resetWith_port fb o font, State.resetWith_font fb o font⟩

/-- Settles O17: a command is one update of the state, and each case of the step has a next state. -/
theorem everyCommandAndStepGoesOn : Obligations.EveryCommandAndStepGoesOn := by
  unfold Obligations.EveryCommandAndStepGoesOn
  have hexec (i : Instr) (s : State) : ∃ t, exec i s = .next t := ⟨_, exec_eq i s⟩
  refine ⟨hexec, fun s => ?_⟩
  cases hr : s.rst with
  | true => exact ⟨_, step_of_rst hr⟩
  | false =>
    cases hp : s.port with
    | nil => exact ⟨_, step_of_noWord hr hp⟩
    | cons w rest =>
      cases hf : s.fault with
      | true => exact ⟨_, step_of_fault hr hf hp⟩
      | false =>
        cases hd : decode s.port with
        | command i n => exact step_of_command hr hf hd ▸ hexec i (s.consume n)
        | illegal c => exact ⟨_, step_of_illegal hr hf hd⟩
        | incomplete => exact ⟨_, step_of_incomplete hr hf hd⟩
        | noWord => exact absurd (hp ▸ hd) (decode_cons_ne_noWord w rest)

end Sys2Proof.Machine
end

section
/-! The invariant of the reachable states (10_state.md R37): it holds after reset and every step keeps it. -/

namespace Sys2Proof.Machine

/-- The invariant speaks of four fields only. -/
theorem State.Inv.congr {s t : State} (h : s.Inv) (hfb : Memory.wf t.fb = true) (hfault : t.fault = s.fault)
    (hfcode : t.fcode = s.fcode) (hout : ∀ b ∈ t.out, b.length = 1024) : t.Inv where
  fb_wf := hfb
  fcode_clear := by rw [hfault, hfcode]; exact h.fcode_clear
  fcode_cause := by rw [hfault, hfcode]; exact h.fcode_cause
  out_size := hout

theorem State.Inv.consume {s : State} (h : s.Inv) (n : Nat) : (s.consume n).Inv :=
  h.congr h.fb_wf rfl rfl h.out_size

/-- Without a fault and without snapshots only the Framebuffer's form is asked for. -/
theorem State.Inv.of_fresh {s : State} (hfb : Memory.wf s.fb = true) (hfault : s.fault = false) (hfcode : s.fcode = 0)
    (hout : s.out = []) : s.Inv where
  fb_wf := hfb
  fcode_clear _ := hfcode
  fcode_cause hf := absurd (hfault.symm.trans hf) Bool.noConfusion
  out_size := by simp [hout]

theorem IllegalCause.code_cases (c : IllegalCause) : c.code = 1 ∨ c.code = 2 := by
  cases c with
  | reservedOpcode => exact .inl rfl
  | mustBeZero => exact .inr rfl

theorem takeIllegal_inv {s : State} (h : s.Inv) (c : IllegalCause) : (takeIllegal s c).Inv where
  fb_wf := h.fb_wf
  fcode_clear hf := absurd (State.raiseIllegal_fault (s.consume 1) c ▸ hf) Bool.noConfusion
  fcode_cause _ := IllegalCause.code_cases c
  out_size := h.out_size

theorem takeReset_inv (s : State) : (takeReset s).Inv :=
  .of_fresh (wf_takeReset s) (takeReset_fault s) (takeReset_fcode s) (takeReset_out s)

/-- A command keeps the invariant: it writes FB in canonical form, or ORIENT, or emits 1024 bytes. -/
theorem exec_keeps_inv {i : Instr} {s t : State} (h : s.Inv) (he : exec i s = .next t) : t.Inv := by
  rcases exec_cases he with ⟨m, rfl, hm⟩ | ⟨o, -, rfl⟩ | ⟨-, rfl⟩
  · exact h.congr (by rw [State.withFb_fb]; exact hm h.fb_wf) (State.withFb_fault s m) (State.withFb_fcode s m)
      (by rw [State.withFb_out]; exact h.out_size)
  · exact h.congr h.fb_wf rfl rfl h.out_size
  · refine h.congr (by rw [State.emit_fb]; exact h.fb_wf) (State.emit_fault s _) (State.emit_fcode s _) fun b hb => ?_
    rw [State.emit_out, List.mem_append, List.mem_singleton] at hb
    rcases hb with hb | rfl
    · exact h.out_size b hb
    · exact Memory.bytes_length s.fb

/-- Settles O16: of the cases of the step only a command, an illegal word and a reset touch what the invariant names. -/
theorem everyStepKeepsTheInvariant : Obligations.EveryStepKeepsTheInvariant := by
  unfold Obligations.EveryStepKeepsTheInvariant
  intro s t h hstep
  rcases step_cases hstep with ⟨-, rfl⟩ | ⟨-, -, rfl⟩ | ⟨-, -, -, rfl⟩ | ⟨-, -, i, n, -, he⟩ | ⟨-, -, c, -, rfl⟩ |
    ⟨-, -, -, rfl⟩
  · exact takeReset_inv s
  · exact h
  · exact h.consume 1
  · exact exec_keeps_inv (h.consume n) he
  · exact takeIllegal_inv h c
  · exact h

/-- Settles O15: after reset there is no fault and no snapshot. -/
theorem resetMeetsTheInvariant : Obligations.ResetMeetsTheInvariant := by
  unfold Obligations.ResetMeetsTheInvariant
  have hreset (fb : Memory) (o : Orientation) (font : FontRom) (h : Memory.wf fb = true) :
      (State.resetWith fb o font).Inv :=
    .of_fresh h (State.resetWith_fault fb o font) (State.resetWith_fcode fb o font) (State.resetWith_out fb o font)
  exact ⟨hreset, hreset [] .normal Config.font Memory.wf_nil⟩

end Sys2Proof.Machine
end

section
/-! What a step and a command leave alone: the words behind a command, OUT, ORIENT and the rest of the state. -/

namespace Sys2Proof.Machine

/-! ### The words behind a command -/

theorem payloadChar_append {p : List Word} {i : Nat} (h : i / 8 < p.length) (q : List Word) :
    payloadChar (p ++ q) i = payloadChar p i := by
  rw [payloadChar, payloadChar, List.getD_append _ _ _ _ h]

theorem unpackText_append {len : Nat} {p : List Word} (h : payloadCount len ≤ p.length) (q : List Word) :
    unpackText len (p ++ q) = unpackText len p := by
  refine List.map_congr_left fun i hi => payloadChar_append ?_ q
  have hlt : i < len := List.mem_range.mp hi
  unfold payloadCount at h
  omega

theorem assemble_append {c : Opcode} {w : Word} {rest : List Word} (h : assemble c w rest ≠ .incomplete)
    (q : List Word) : assemble c w (rest ++ q) = assemble c w rest := by
  cases c with
  | drawtxt =>
    by_cases hlen : rest.length < payloadCount (argField w).toNat
    · rw [assemble, if_pos hlen] at h
      exact absurd rfl h
    · have hlen' : ¬ (rest ++ q).length < payloadCount (argField w).toNat := by
        rw [List.length_append]
        omega
      rw [assemble, if_neg hlen', assemble, if_neg hlen, unpackText_append (Nat.not_lt.mp hlen)]
  | clear | setorient | pset | drawpx | testpat | drawch | snap => rfl

/-- Where something is decoded and nothing is awaited, words behind it are not looked at. -/
theorem decode_append {ws : List Word} (hne : ws ≠ []) (h : decode ws ≠ .incomplete) (q : List Word) :
    decode (ws ++ q) = decode ws := by
  obtain ⟨w, rest, rfl⟩ := List.exists_cons_of_ne_nil hne
  cases hw : decodeHeader w with
  | error c => rw [List.cons_append, decode_of_illegal hw, decode_of_illegal hw]
  | ok c =>
    rw [decode_of_legal hw] at h
    rw [List.cons_append, decode_of_legal hw, decode_of_legal hw, assemble_append h]

/-- A decoded command takes no more words than there are. -/
theorem le_length_of_decode {ws : List Word} {i : Instr} {n : Nat} (h : decode ws = .command i n) : n ≤ ws.length := by
  obtain ⟨w, rest, c, rfl, -, hasm⟩ := exists_assemble_of_decode h
  exact (wellFormed_and_length_of_assemble hasm).2.2

theorem present_consume {s : State} {n : Nat} (h : n ≤ s.port.length) (ws : List Word) :
    (s.present ws).consume n = (s.consume n).present ws := by
  simp only [State.present, State.consume, List.drop_append_of_le_length h]

/-- A command does not look at the port. -/
theorem exec_present {i : Instr} {s t : State} (h : exec i s = .next t) (ws : List Word) :
    exec i (s.present ws) = .next (t.present ws) := by
  rw [exec_eq] at h ⊢
  obtain rfl := Host.Outcome.next.inj h
  rfl

/-- Settles O18: the decoder reads the same from the longer port, and taking words from its front and adding words at
its end commute. -/
theorem wordsBehindACommandDoNotMatter : Obligations.WordsBehindACommandDoNotMatter := by
  unfold Obligations.WordsBehindACommandDoNotMatter
  intro s t ws hr hne hd hstep
  obtain ⟨w, rest, hp⟩ := List.exists_cons_of_ne_nil hne
  have hr' : (s.present ws).rst = false := hr
  have hp' : (s.present ws).port = w :: (rest ++ ws) := by rw [State.present_port, hp, List.cons_append]
  have hlen : 1 ≤ s.port.length := by rw [hp, List.length_cons]; omega
  cases hf : s.fault with
  | true =>
    have hf' : (s.present ws).fault = true := hf
    rw [step_of_fault hr hf hp] at hstep
    obtain rfl := Host.Outcome.next.inj hstep
    rw [step_of_fault hr' hf' hp', discardWord, present_consume hlen, discardWord]
  | false =>
    have hf' : (s.present ws).fault = false := hf
    have hd : decode s.port ≠ .incomplete := hd.resolve_left (by rw [hf]; exact Bool.noConfusion)
    have hd' : decode (s.present ws).port = decode s.port := decode_append hne hd ws
    cases hdec : decode s.port with
    | command i n =>
      rw [step_of_command hr hf hdec] at hstep
      rw [step_of_command hr' hf' (hd'.trans hdec), present_consume (le_length_of_decode hdec), exec_present hstep]
    | illegal c =>
      rw [step_of_illegal hr hf hdec] at hstep
      obtain rfl := Host.Outcome.next.inj hstep
      rw [step_of_illegal hr' hf' (hd'.trans hdec), takeIllegal, present_consume hlen]
      rfl
    | incomplete => exact absurd hdec hd
    | noWord => exact absurd (hp ▸ hdec) (decode_cons_ne_noWord w rest)

/-! ### OUT and ORIENT -/

/-- Settles O19: only a command can add to OUT, and only SNAP does. -/
theorem outIsAppendOnly : Obligations.OutIsAppendOnly := by
  unfold Obligations.OutIsAppendOnly
  intro s t hr hstep
  rcases step_cases hstep with ⟨hr', -⟩ | ⟨-, -, rfl⟩ | ⟨-, -, -, rfl⟩ | ⟨-, -, i, n, -, he⟩ | ⟨-, -, c, -, rfl⟩ |
    ⟨-, -, -, rfl⟩
  · exact absurd (hr.symm.trans hr') Bool.noConfusion
  · exact .inl rfl
  · exact .inl rfl
  · rcases exec_cases he with ⟨m, rfl, -⟩ | ⟨o, -, rfl⟩ | ⟨-, rfl⟩
    · exact .inl (State.withFb_out _ m)
    · exact .inl rfl
    · exact .inr (State.emit_out _ _)
  · exact .inl rfl
  · exact .inl rfl

/-- Settles O21: a reset and a command keep the font, and the only command that changes ORIENT is SETORIENT. -/
theorem onlySetorientAndResetChangeOrient : Obligations.OnlySetorientAndResetChangeOrient := by
  unfold Obligations.OnlySetorientAndResetChangeOrient
  intro s t hstep
  rcases step_cases hstep with ⟨hr', rfl⟩ | ⟨-, -, rfl⟩ | ⟨-, -, -, rfl⟩ | ⟨-, hf, i, n, hd, he⟩ | ⟨-, -, c, -, rfl⟩ |
    ⟨-, -, -, rfl⟩
  · exact ⟨takeReset_font s, fun hr => absurd (hr.symm.trans hr') Bool.noConfusion⟩
  · exact ⟨rfl, fun _ => .inl rfl⟩
  · exact ⟨rfl, fun _ => .inl rfl⟩
  · rcases exec_cases he with ⟨m, rfl, -⟩ | ⟨o, rfl, rfl⟩ | ⟨-, rfl⟩
    · exact ⟨State.withFb_font _ m, fun _ => .inl (State.withFb_orient _ m)⟩
    · exact ⟨rfl, fun _ => .inr ⟨o, n, hf, hd, rfl⟩⟩
    · exact ⟨State.emit_font _ _, fun _ => .inl (State.emit_orient _ _)⟩
  · exact ⟨rfl, fun _ => .inl rfl⟩
  · exact ⟨rfl, fun _ => .inl rfl⟩

/-! ### The frame of the commands -/

theorem orientAfter_of_ne_setorient {i : Instr} (h : ∀ o, i ≠ .setorient o) (o : Orientation) :
    orientAfter i o = o := by
  cases i with
  | setorient o' => exact absurd rfl (h o')
  | clear | pset | drawpx | testpat | drawch | drawtxt | snap => rfl

theorem outAfter_of_ne_snap {i : Instr} (h : i ≠ .snap) (m : Memory) : outAfter i m = [] := by
  cases i with
  | snap => exact absurd rfl h
  | clear | setorient | pset | drawpx | testpat | drawch | drawtxt => rfl

/-- Settles O20: every command is one update of FB, ORIENT and OUT, each changed by the commands named only. -/
theorem commandsLeaveOtherStateAlone : Obligations.CommandsLeaveOtherStateAlone := by
  unfold Obligations.CommandsLeaveOtherStateAlone
  intro i s t h
  rw [exec_eq] at h
  obtain rfl := Host.Outcome.next.inj h
  refine ⟨rfl, rfl, rfl, rfl, rfl, rfl, rfl, fun hi => ?_, fun hi => ?_, fun hi => ?_⟩
  · exact orientAfter_of_ne_setorient hi s.orient
  · show s.out ++ outAfter i s.fb = s.out
    rw [outAfter_of_ne_snap hi, List.append_nil]
  · rcases hi with ⟨o, rfl⟩ | rfl
    · rfl
    · rfl

end Sys2Proof.Machine
end

section
/-! The Framebuffer's obligations: the pixel mapping, PSET, SNAP, the memory frame (20_memory.md; 40_framebuffer.md). -/

namespace Sys2Proof.Machine

/-! ### The pixel mapping -/

theorem eq_byteIndex_iff {x y : Int} (h : InRange x y) (a : FbIndex) :
    a = byteIndex x y ↔ (a.val : Int) = x + y / 8 * 128 := by
  rw [← byteIndex_val_int h, Fin.ext_iff, Nat.cast_inj]

/-- The pixel of bit `k` of byte `a` (20_memory.md R41). -/
theorem pixel_of_bit (a : FbIndex) {k : Nat} (hk : k < 8) :
    InRange (a.val % 128 : Nat) (8 * (a.val / 128) + k : Nat) ∧
      byteIndex (a.val % 128 : Nat) (8 * (a.val / 128) + k : Nat) = a ∧
      bitIndex (8 * (a.val / 128) + k : Nat) = k := by
  have ha := a.isLt
  have hr : InRange (a.val % 128 : Nat) (8 * (a.val / 128) + k : Nat) := by omega
  refine ⟨hr, ?_, ?_⟩
  · rw [eq_comm, eq_byteIndex_iff hr]
    omega
  · rw [bitIndex]
    omega

/-- Settles O22: the address formulas, inverted by arithmetic. -/
theorem pixelsAndBitsAreInBijection : Obligations.PixelsAndBitsAreInBijection := by
  unfold Obligations.PixelsAndBitsAreInBijection
  refine ⟨fun x y h => ?_, fun a k hk => pixel_of_bit a hk⟩
  have ha := byteIndex_val_int h
  have hb : (bitIndex y : Int) = y % 8 := bitIndex_int h.2.2.1
  exact ⟨ha, hb, by omega, by omega⟩

/-! ### PSET -/

theorem bitIndex_eq_toNat {y : Int} (h : 0 ≤ y) : bitIndex y = (y % 8).toNat := by
  have hb := bitIndex_int h
  omega

/-- What `SetPixel` does to a byte, in the integers of 20_memory.md R41. -/
theorem read_setPixel_of_inRange {x y : Int} (h : InRange x y) (m : Memory) (on : Bool) (a : FbIndex) :
    Memory.read (setPixel m x y on) a =
      if (a.val : Int) = x + y / 8 * 128 then putBit (Memory.read m a) (bitIndex y) on else Memory.read m a := by
  rw [read_setPixel]
  exact if_congr ((and_iff_right h).trans (eq_byteIndex_iff h a)) rfl rfl

/-- Settles O24: `SetPixel` writes one byte with one bit put, and only in range. -/
theorem psetSetsOrClearsOneBit : Obligations.PsetSetsOrClearsOneBit := by
  unfold Obligations.PsetSetsOrClearsOneBit
  intro x y on s
  refine ⟨setPixel s.fb x y on, exec_pset x y on s, fun h a => ?_, setPixel_of_not_inRange s.fb on⟩
  rw [read_setPixel_of_inRange h, bitIndex_eq_toNat h.2.2.1, putBit]

/-- The later of two writes to one pixel wins (40_framebuffer.md section 1). -/
theorem read_setPixel_setPixel_same (m : Memory) (x y : Int) (v v' : Bool) (a : FbIndex) :
    Memory.read (setPixel (setPixel m x y v) x y v') a = Memory.read (setPixel m x y v') a := by
  refine read_eq_of_getPixel_eq (fun qx qy hq => ?_) a
  rw [getPixel_setPixel _ _ _ _ hq, getPixel_setPixel _ _ _ _ hq, getPixel_setPixel _ _ _ _ hq]
  split
  · rfl
  · rfl

/-- Writes to different pixels commute (40_framebuffer.md section 1). -/
theorem read_setPixel_comm (m : Memory) {x y x' y' : Int} (hne : (x', y') ≠ (x, y)) (v v' : Bool) (a : FbIndex) :
    Memory.read (setPixel (setPixel m x y v) x' y' v') a = Memory.read (setPixel (setPixel m x' y' v') x y v) a := by
  refine read_eq_of_getPixel_eq (fun qx qy hq => ?_) a
  simp only [getPixel_setPixel _ _ _ _ hq]
  by_cases h : x = qx ∧ y = qy
  · have h' : ¬ (x' = qx ∧ y' = qy) := fun h' => hne (Prod.ext (h'.1.trans h.1.symm) (h'.2.trans h.2.symm))
    rw [if_pos h, if_neg h', if_pos h]
  · rw [if_neg h, if_neg h]

/-- Settles O25: each property is one of a pixel after `SetPixel`. -/
theorem setPixelProperties : Obligations.SetPixelProperties := by
  unfold Obligations.SetPixelProperties
  refine ⟨fun x y s h => ?_, fun x y v s => ?_, fun x y v s h => ?_, fun x y x' y' v s _ h' hne => ?_,
    fun x y x' y' v v' s hne => ?_, fun x y v v' s => ?_⟩
  · refine ⟨_, _, exec_pset x y true s, ?_, exec_pset x y false _, ?_⟩
    · rw [State.withFb_fb, getPixel_setPixel _ _ _ _ h, if_pos ⟨rfl, rfl⟩]
    · rw [State.withFb_fb, getPixel_setPixel _ _ _ _ h, if_pos ⟨rfl, rfl⟩]
  · refine ⟨_, _, exec_pset x y v s, exec_pset x y v _, fun a => ?_⟩
    rw [State.withFb_fb, State.withFb_fb, read_setPixel_setPixel_same]
  · rw [exec_pset, setPixel_of_not_inRange s.fb v h, State.withFb_self]
  · refine ⟨_, exec_pset x y v s, ?_⟩
    have hother : ¬ (x = x' ∧ y = y') := fun ⟨hx, hy⟩ => hne (Prod.ext hx.symm hy.symm)
    rw [State.withFb_fb, getPixel_setPixel _ _ _ _ h', if_neg hother]
  · refine ⟨_, _, _, _, exec_pset x y v s, exec_pset x' y' v' _, exec_pset x' y' v' s, exec_pset x y v _, fun a => ?_⟩
    simp only [State.withFb_fb]
    exact read_setPixel_comm s.fb hne v v' a
  · refine ⟨_, _, _, exec_pset x y v s, exec_pset x y v' _, exec_pset x y v' s, fun a => ?_⟩
    simp only [State.withFb_fb]
    exact read_setPixel_setPixel_same s.fb x y v v' a

/-! ### SNAP, CLEAR and SETORIENT -/

/-- Settles O26: the snapshot maps the reads over all indices in ascending order. -/
theorem snapEmitsEveryByteInOrder : Obligations.SnapEmitsEveryByteInOrder := by
  unfold Obligations.SnapEmitsEveryByteInOrder
  intro s
  exact ⟨Memory.bytes s.fb, exec_snap s, Memory.bytes_length s.fb, Memory.bytes_getElem? s.fb⟩

/-- Settles O51: neither command looks at what the other writes, and after CLEAR every byte is 0. -/
theorem bootCommandsDefineTheState : Obligations.BootCommandsDefineTheState := by
  unfold Obligations.BootCommandsDefineTheState
  intro o s s'
  refine ⟨_, _, _, _, exec_clear s, exec_setorient o _, exec_setorient o s', exec_clear _, ?_, fun a => ?_⟩
  · rw [State.withOrient_orient, State.withFb_orient, State.withOrient_orient]
  · rw [State.withOrient_fb, State.withFb_fb, State.withFb_fb, Memory.read_zeroAll, Memory.read_zeroAll]

/-! ### The memory frame -/

/-- A `DrawPixel` writes no byte but the one its point lies in (42_pixel_writer.md R130). -/
theorem read_drawPixel_of_not_stored {p : Params} {o : Orientation} {r : PixelReq} {a : FbIndex}
    (h : storedByte p o r ≠ some a) (m : Memory) :
    Memory.read (drawPixel p o m r.lx r.ly r.on) a = Memory.read m a := by
  refine read_drawAll_of_not_stored p o m [r] ?_
  rw [storedBytes, List.mem_filterMap]
  rintro ⟨r', hr', hs⟩
  exact h (List.mem_singleton.mp hr' ▸ hs)

/-- Settles O27: PSET writes its own byte, the other commands serve lists of requests. -/
theorem drawingStoresOnlyToItsBytes : Obligations.DrawingStoresOnlyToItsBytes := by
  unfold Obligations.DrawingStoresOnlyToItsBytes
  refine ⟨fun x y on s => ⟨_, exec_pset x y on s, fun a ha => ?_⟩,
    fun x y on s => ⟨_, exec_drawpx x y on s, fun a ha => ?_⟩,
    fun s => ⟨_, exec_testpat s, fun a ha => ?_⟩,
    fun x y code on scale s => ⟨_, exec_drawch x y code on scale s, fun a ha => ?_⟩,
    fun x y text on scale s => ⟨_, exec_drawtxt x y text on scale s, fun a ha => ?_⟩⟩
  · rw [State.withFb_fb, read_setPixel, if_neg ha]
  · rw [State.withFb_fb]
    exact read_drawPixel_of_not_stored ha s.fb
  · rw [State.withFb_fb, read_drawAll_of_not_stored _ _ _ _ ha]
  · rw [State.withFb_fb, read_drawAll_of_not_stored _ _ _ _ ha]
  · rw [State.withFb_fb, read_drawAll_of_not_stored _ _ _ _ ha]

end Sys2Proof.Machine
end

section
/-! The pixels a command paints and the values it gives them, which depend on nothing that FB holds (43_rasterizer.md
R140; 20_memory.md R47). -/

namespace Sys2Proof.Machine

/-- The value a command gives a pixel, if it writes it. -/
def paintOf (i : Instr) (o : Orientation) (font : FontRom) (px py : Int) : Option Bool :=
  match i with
  | .clear => some false
  | .setorient _ | .snap => none
  | .pset x y on => if x = px ∧ y = py then some on else none
  | .drawpx x y on => if transform fbcoreParams o x y = (px, py) then some on else none
  | .testpat => lastHit fbcoreParams o px py testPatternReqs
  | .drawch x y code on scale => lastHit fbcoreParams o px py (charReqs font x y code on scale)
  | .drawtxt x y text on scale => lastHit fbcoreParams o px py (textReqs fbcoreParams font o x y text on scale)

theorem getPixel_zeroAll (m : Memory) (px py : Int) : getPixel (Memory.zeroAll m) px py = false := by
  rw [getPixel, Memory.read_zeroAll, BitVec.ofNat_eq_ofNat, BitVec.getLsbD_zero]

/-- Every pixel a command leaves is one it painted or one it found. -/
theorem getPixel_fbAfter (i : Instr) (o : Orientation) (font : FontRom) (m : Memory) {px py : Int} (h : InRange px py) :
    getPixel (fbAfter i o font m) px py = (paintOf i o font px py).getD (getPixel m px py) := by
  cases i with
  | clear => exact getPixel_zeroAll m px py
  | setorient | snap => rfl
  | pset x y on =>
    rw [fbAfter, getPixel_setPixel _ _ _ _ h, paintOf]
    split
    · rfl
    · rfl
  | drawpx x y on =>
    rw [fbAfter, getPixel_drawPixel _ _ _ _ _ _ h, paintOf]
    split
    · rfl
    · rfl
  | testpat => exact getPixel_drawAll _ _ _ _ h
  | drawch => exact getPixel_drawAll _ _ _ _ h
  | drawtxt => exact getPixel_drawAll _ _ _ _ h

/-- Settles O47: the two runs paint the same value or neither paints. -/
theorem paintingIgnoresOldContents : Obligations.PaintingIgnoresOldContents := by
  unfold Obligations.PaintingIgnoresOldContents
  intro i s s' horient hfont
  refine ⟨_, _, exec_eq i s, exec_eq i s', fun px py h => ?_⟩
  simp only [getPixel_fbAfter _ _ _ _ h, horient, hfont]
  cases paintOf i s'.orient s'.font px py with
  | none => exact .inr ⟨rfl, rfl⟩
  | some v => exact .inl rfl

theorem orientAfter_orientAfter (i : Instr) (o : Orientation) : orientAfter i (orientAfter i o) = orientAfter i o := by
  cases i with
  | clear | setorient | pset | drawpx | testpat | drawch | drawtxt | snap => rfl

/-- The one command that changes the orientation paints nothing. -/
theorem paintOf_orientAfter (i : Instr) (o : Orientation) : paintOf i (orientAfter i o) = paintOf i o := by
  cases i with
  | clear | setorient | pset | drawpx | testpat | drawch | drawtxt | snap => rfl

theorem exec_of_ne_snap {i : Instr} (h : i ≠ .snap) (s : State) :
    exec i s = .next { s with fb := fbAfter i s.orient s.font s.fb, orient := orientAfter i s.orient } := by
  rw [exec_eq, outAfter_of_ne_snap h, List.append_nil]

/-- Settles O48: the second run paints each pixel the value it has, and sets ORIENT to what it is. -/
theorem commandsAreIdempotent : Obligations.CommandsAreIdempotent := by
  unfold Obligations.CommandsAreIdempotent
  intro i s hne
  refine ⟨_, _, exec_of_ne_snap hne s, exec_of_ne_snap hne _, ?_, fun a => read_eq_of_getPixel_eq (fun px py h => ?_) a⟩
  · simp only [orientAfter_orientAfter]
  · simp only [getPixel_fbAfter _ _ _ _ h, paintOf_orientAfter]
    cases paintOf i s.orient s.font px py with
    | none => rfl
    | some v => rfl

end Sys2Proof.Machine
end

section
/-! The transform's obligations and those on single logical pixels (41_transform.md sections 2 and 4;
42_pixel_writer.md section 2). -/

namespace Sys2Proof.Machine

/-! ### The transform -/

theorem transform_rot270 (p : Params) (lx ly : Int) : transform p .rot270 lx ly = (63 - ly, lx) := rfl

/-- Settles O29: the formulas of the four orientations. -/
theorem transformTable : Obligations.TransformTable := by
  unfold Obligations.TransformTable
  intro lx ly
  exact ⟨transform_normal _ lx ly, transform_rot90 lx ly, transform_rot180 _ lx ly, transform_rot270 _ lx ly⟩

/-- Settles O31: the range test on each orientation's formula. -/
theorem writtenLogicalPoints : Obligations.WrittenLogicalPoints := by
  unfold Obligations.WrittenLogicalPoints
  intro o lx ly
  cases o with
  | normal =>
    rw [transform_normal]
    show InRange lx ly ↔ 0 ≤ lx ∧ lx ≤ 127 ∧ 0 ≤ ly ∧ ly ≤ 63
    omega
  | rot90 =>
    rw [transform_rot90]
    show InRange ly (63 - lx) ↔ 0 ≤ lx ∧ lx ≤ 63 ∧ 0 ≤ ly ∧ ly ≤ 127
    omega
  | rot180 =>
    rw [transform_rot180]
    show InRange (127 - lx) (63 - ly) ↔ 0 ≤ lx ∧ lx ≤ 127 ∧ 0 ≤ ly ∧ ly ≤ 63
    omega
  | rot270 =>
    rw [transform_rot270]
    show InRange (63 - ly) lx ↔ 0 ≤ lx ∧ lx ≤ 63 ∧ -64 ≤ ly ∧ ly ≤ 63
    omega

/-- Different logical points have different images (41_transform.md R117). -/
theorem transform_inj {o : Orientation} {lx ly lx' ly' : Int}
    (h : transform fbcoreParams o lx ly = transform fbcoreParams o lx' ly') : lx = lx' ∧ ly = ly' := by
  cases o with
  | normal =>
    rw [transform_normal, transform_normal, Prod.mk.injEq] at h
    exact h
  | rot90 =>
    rw [transform_rot90, transform_rot90, Prod.mk.injEq] at h
    omega
  | rot180 =>
    rw [transform_rot180, transform_rot180, Prod.mk.injEq] at h
    omega
  | rot270 =>
    rw [transform_rot270, transform_rot270, Prod.mk.injEq] at h
    omega

/-- The logical point that a physical point is the image of (41_transform.md R117). -/
def untransform : Orientation → Int → Int → Int × Int
  | .normal, px, py => (px, py)
  | .rot90, px, py => (63 - py, px)
  | .rot180, px, py => (127 - px, 63 - py)
  | .rot270, px, py => (py, 63 - px)

theorem transform_untransform (o : Orientation) (px py : Int) :
    transform fbcoreParams o (untransform o px py).1 (untransform o px py).2 = (px, py) := by
  cases o with
  | normal => exact transform_normal _ px py
  | rot90 => rw [transform_rot90, untransform, sub_sub_cancel]
  | rot180 => rw [transform_rot180, untransform, sub_sub_cancel, sub_sub_cancel]
  | rot270 => rw [transform_rot270, untransform, sub_sub_cancel]

/-- Settles O32: `untransform` is a right inverse of the injective transform; the compositions are computed. -/
theorem transformIsABijection : Obligations.TransformIsABijection := by
  unfold Obligations.TransformIsABijection
  refine ⟨fun o px py => ?_, fun o lx ly lx' ly' => transform_inj, fun lx ly => ⟨?_, ?_, ?_⟩⟩
  · cases o with
    | normal => exact transform_untransform .normal px py
    | rot90 => exact transform_untransform .rot90 px py
    | rot180 => exact transform_untransform .rot180 px py
    | rot270 => exact transform_untransform .rot270 px py
  · simp only [transform_rot90, transform_rot270, sub_sub_cancel]
  · simp only [transform_rot180, sub_sub_cancel]
  · simp only [transform_rot90]

/-! ### The two readings of the ROT90 else-branch -/

/-- Only ROT90 looks at the parameters. -/
theorem transform_congr_params {o : Orientation} (h : o ≠ .rot90) (p p' : Params) (lx ly : Int) :
    transform p o lx ly = transform p' o lx ly := by
  cases o with
  | rot90 => exact absurd rfl h
  | normal | rot180 | rot270 => rfl

/-- Within the logical space ROT90's else-branch is not taken (41_transform.md R112). -/
theorem transform_rot90_inside (p : Params) {lx ly : Int} (h : 0 ≤ lx ∧ lx < 64 ∧ 0 ≤ ly ∧ ly < 128) :
    transform p .rot90 lx ly = (ly, 63 - lx) := by
  rw [transform, if_pos h]

theorem transform_rot90_outside (p : Params) {lx ly : Int} (h : ¬ (0 ≤ lx ∧ lx < 64 ∧ 0 ≤ ly ∧ ly < 128)) :
    transform p .rot90 lx ly = (ly, p.rot90ElseBase - lx) := by
  rw [transform, if_neg h]

/-- Settles O33: outside the logical space the reading 63 drops every point, and the reading 127 all but the band's. -/
theorem rot90ReadingsDifferOnlyInTheBand : Obligations.Rot90ReadingsDifferOnlyInTheBand := by
  unfold Obligations.Rot90ReadingsDifferOnlyInTheBand
  intro p hp o m lx ly on
  refine ⟨fun hnot => ?_, ?_⟩
  · by_cases ho : o = .rot90
    · subst ho
      by_cases hin : 0 ≤ lx ∧ lx < 64 ∧ 0 ≤ ly ∧ ly < 128
      · rw [drawPixel, drawPixel, transform_rot90_inside p hin, transform_rot90]
      · have hband : ¬ (64 ≤ lx ∧ lx ≤ 127 ∧ 0 ≤ ly ∧ ly ≤ 127) := fun hband => hnot ⟨rfl, hband⟩
        have h127 : ¬ InRange ly (127 - lx) := by omega
        have h63 : ¬ InRange ly (63 - lx) := by omega
        rw [drawPixel, drawPixel, transform_rot90_outside p hin, transform_rot90, hp, setPixel_of_not_inRange m on h127,
          setPixel_of_not_inRange m on h63]
    · rw [drawPixel, drawPixel, transform_congr_params ho p fbcoreParams]
  · rintro ⟨rfl, hband⟩
    have hout : ¬ (0 ≤ lx ∧ lx < 64 ∧ 0 ≤ ly ∧ ly < 128) := by omega
    have h63 : ¬ InRange ly (63 - lx) := by omega
    refine ⟨?_, by omega, ?_⟩
    · rw [drawPixel, transform_rot90, setPixel_of_not_inRange m on h63]
    · rw [drawPixel, transform_rot90_outside p hout, hp]

/-! ### DRAWPX on single pixels -/

theorem drawPixel_normal (p : Params) (m : Memory) (lx ly : Int) (on : Bool) :
    drawPixel p .normal m lx ly on = setPixel m lx ly on := rfl

theorem drawPixel_rot90 (m : Memory) (lx ly : Int) (on : Bool) :
    drawPixel fbcoreParams .rot90 m lx ly on = setPixel m ly (63 - lx) on := by
  rw [drawPixel, transform_rot90]

theorem drawPixel_rot180 (p : Params) (m : Memory) (lx ly : Int) (on : Bool) :
    drawPixel p .rot180 m lx ly on = setPixel m (127 - lx) (63 - ly) on := rfl

/-- Settles O36: NORMAL's transform is the identity. -/
theorem drawpxUnderNormalIsPset : Obligations.DrawpxUnderNormalIsPset := by
  unfold Obligations.DrawpxUnderNormalIsPset
  intro x y on s h
  rw [exec_drawpx, exec_pset, h, drawPixel_normal]

/-- Setting a pixel in range: it reads back, and its byte gains the pixel's bit (40_framebuffer.md R92). -/
theorem setPixel_true_of_inRange {x y : Int} (h : InRange x y) (m : Memory) :
    getPixel (setPixel m x y true) x y = true ∧ ∀ a : FbIndex, (a.val : Int) = x + y / 8 * 128 →
      Memory.read (setPixel m x y true) a = Memory.read m a ||| (1#8 <<< bitIndex y) := by
  refine ⟨by rw [getPixel_setPixel _ _ _ _ h, if_pos ⟨rfl, rfl⟩], fun a ha => ?_⟩
  rw [read_setPixel_of_inRange h, if_pos ha, putBit, if_pos rfl]

/-- Settles O37: DRAWPX is `SetPixel` on the transformed point, which is written out for each case. -/
theorem drawPixelSourceProperties : Obligations.DrawPixelSourceProperties := by
  unfold Obligations.DrawPixelSourceProperties
  refine ⟨fun x y on s ho h => ⟨_, exec_drawpx x y on s, ?_⟩, fun s ho => ⟨⟨_, exec_drawpx 0 0 true s, ?_⟩,
    ⟨_, exec_drawpx 63 0 true s, ?_⟩⟩, fun s ho => ⟨_, exec_drawpx 0 0 true s, ?_⟩⟩
  · rw [State.withFb_fb, ho, drawPixel_normal]
    refine ⟨?_, fun a ha => ?_, fun a ha k hk hne => ?_⟩
    · rw [getPixel_setPixel _ _ _ _ h, if_pos ⟨rfl, rfl⟩]
    · rw [read_setPixel_of_inRange h, if_neg ha]
    · have hbit : k ≠ bitIndex y := fun he => hne (he ▸ bitIndex_int h.2.2.1)
      rw [read_setPixel_of_inRange h, if_pos ha, getLsbD_putBit _ _ (bitIndex_lt y) hk, if_neg hbit]
  · rw [State.withFb_fb, ho, drawPixel_rot90]
    obtain ⟨hpix, hbyte⟩ := setPixel_true_of_inRange (x := 0) (y := 63) (by decide) s.fb
    exact ⟨hpix, hbyte 896 (by decide)⟩
  · rw [State.withFb_fb, ho, drawPixel_rot90]
    obtain ⟨hpix, hbyte⟩ := setPixel_true_of_inRange (x := 0) (y := 0) (by decide) s.fb
    exact ⟨hpix, hbyte 0 (by decide)⟩
  · rw [State.withFb_fb, ho, drawPixel_rot180]
    obtain ⟨hpix, hbyte⟩ := setPixel_true_of_inRange (x := 127) (y := 63) (by decide) s.fb
    exact ⟨hpix, hbyte 1023 (by decide)⟩

end Sys2Proof.Machine
end

section
/-! TESTPAT's bytes under each orientation (43_rasterizer.md R141, R142). -/

namespace Sys2Proof.Machine

/-- The pattern at a logical point: on where the block indices have an even sum (43_rasterizer.md R141). -/
def checker (lx ly : Int) : Bool := decide ((lx / 8 + ly / 8) % 2 = 0)

theorem mem_testPatternReqs_mk {lx ly : Int} {on : Bool} :
    ⟨lx, ly, on⟩ ∈ testPatternReqs ↔ (0 ≤ lx ∧ lx < 128 ∧ 0 ≤ ly ∧ ly < 64) ∧ on = checker lx ly := by
  rw [mem_testPatternReqs]
  constructor
  · rintro ⟨y, hy, x, hx, ⟨⟩⟩
    refine ⟨by omega, decide_eq_decide.mpr ?_⟩
    omega
  · rintro ⟨h, hon⟩
    have hx : (lx.toNat : Int) = lx := Int.toNat_of_nonneg h.1
    have hy : (ly.toNat : Int) = ly := Int.toNat_of_nonneg h.2.2.1
    refine ⟨ly.toNat, by omega, lx.toNat, by omega, ?_⟩
    rw [hx, hy, PixelReq.mk.injEq]
    refine ⟨rfl, rfl, hon.trans (decide_eq_decide.mpr ?_)⟩
    omega

section PatternPixel

variable {o : Orientation} {lx ly px py : Int}

/-- A pixel whose logical point the pattern reaches gets the pattern's value there. -/
theorem getPixel_testPattern_inside (hT : transform fbcoreParams o lx ly = (px, py)) (h : InRange px py)
    (hin : 0 ≤ lx ∧ lx < 128 ∧ 0 ≤ ly ∧ ly < 64) (m : Memory) :
    getPixel (drawAll fbcoreParams o m testPatternReqs) px py = checker lx ly := by
  have hhit : lastHit fbcoreParams o px py testPatternReqs = some (checker lx ly) := by
    refine lastHit_eq_some ⟨_, mem_testPatternReqs_mk.mpr ⟨hin, rfl⟩, hT⟩ fun ⟨x, y, on⟩ hr he => ?_
    obtain ⟨rfl, rfl⟩ := transform_inj (he.trans hT.symm)
    exact (mem_testPatternReqs_mk.mp hr).2
  rw [getPixel_drawAll _ _ _ _ h, hhit, Option.getD_some]

/-- A pixel whose logical point lies outside the pattern is left. -/
theorem getPixel_testPattern_outside (hT : transform fbcoreParams o lx ly = (px, py)) (h : InRange px py)
    (hout : ¬ (0 ≤ lx ∧ lx < 128 ∧ 0 ≤ ly ∧ ly < 64)) (m : Memory) :
    getPixel (drawAll fbcoreParams o m testPatternReqs) px py = getPixel m px py := by
  have hhit : lastHit fbcoreParams o px py testPatternReqs = none := by
    refine lastHit_eq_none fun ⟨x, y, on⟩ hr he => hout ?_
    obtain ⟨rfl, rfl⟩ := transform_inj (he.trans hT.symm)
    exact (mem_testPatternReqs_mk.mp hr).1
  rw [getPixel_drawAll _ _ _ _ h, hhit, Option.getD_none]

end PatternPixel

theorem getLsbD_ite_full (P : Prop) [Decidable P] {k : Nat} (hk : k < 8) :
    (if P then 0xFF else 0x00 : Byte).getLsbD k = decide P := by
  by_cases h : P
  · have hones : (0xFF : Byte).getLsbD k = decide (k < 8) := BitVec.getLsbD_allOnes (v := 8)
    rw [if_pos h, decide_eq_true h, hones, decide_eq_true hk]
  · rw [if_neg h, decide_eq_false h]
    exact BitVec.getLsbD_zero

/-- The pattern is the same seen from the opposite corner, and inverted seen from a corner beside. -/
theorem checker_rot180 (px py : Int) : checker (127 - px) (63 - py) = checker px py := by
  rw [checker, checker, decide_eq_decide]
  omega

theorem checker_rot90 (px py : Int) : checker (63 - py) px = !checker px py := by
  rw [checker, checker, ← decide_not, decide_eq_decide]
  omega

theorem checker_rot270 (px py : Int) : checker py (63 - px) = !checker px py := by
  rw [checker, checker, ← decide_not, decide_eq_decide]
  omega

/-- The pixels TESTPAT leaves, per orientation (43_rasterizer.md R142). -/
theorem getPixel_testPattern (o : Orientation) (m : Memory) {px py : Int} (h : InRange px py) :
    getPixel (drawAll fbcoreParams o m testPatternReqs) px py =
      if o = .normal ∨ o = .rot180 then checker px py
      else if px ≤ 63 then !checker px py else getPixel m px py := by
  have hT := transform_untransform o px py
  cases o with
  | normal => exact getPixel_testPattern_inside hT h h m
  | rot180 =>
    have hin : 0 ≤ 127 - px ∧ 127 - px < 128 ∧ 0 ≤ 63 - py ∧ 63 - py < 64 := by omega
    exact (getPixel_testPattern_inside hT h hin m).trans (checker_rot180 px py)
  | rot90 =>
    rw [if_neg (by decide)]
    split
    case isTrue hx =>
      have hin : 0 ≤ 63 - py ∧ 63 - py < 128 ∧ 0 ≤ px ∧ px < 64 := by omega
      exact (getPixel_testPattern_inside hT h hin m).trans (checker_rot90 px py)
    case isFalse hx =>
      have hout : ¬ (0 ≤ 63 - py ∧ 63 - py < 128 ∧ 0 ≤ px ∧ px < 64) := by omega
      exact getPixel_testPattern_outside hT h hout m
  | rot270 =>
    rw [if_neg (by decide)]
    split
    case isTrue hx =>
      have hin : 0 ≤ py ∧ py < 128 ∧ 0 ≤ 63 - px ∧ 63 - px < 64 := by omega
      exact (getPixel_testPattern_inside hT h hin m).trans (checker_rot270 px py)
    case isFalse hx =>
      have hout : ¬ (0 ≤ py ∧ py < 128 ∧ 0 ≤ 63 - px ∧ 63 - px < 64) := by omega
      exact getPixel_testPattern_outside hT h hout m

/-- Along a byte the pattern does not change. -/
theorem checker_of_bit (a k : Nat) (hk : k < 8) :
    checker (a % 128 : Nat) (8 * (a / 128) + k : Nat) = decide ((a % 128 / 8 + a / 128) % 2 = 0) := by
  rw [checker, decide_eq_decide]
  omega

/-- Settles O38: bit by bit, each the pattern at its pixel, its opposite, or the bit found. -/
theorem testPatternBytes : Obligations.TestPatternBytes := by
  unfold Obligations.TestPatternBytes
  intro s
  refine ⟨_, exec_testpat s, fun a => byte_ext fun k hk => ?_⟩
  obtain ⟨hr, hbyte, hbit⟩ := pixel_of_bit a hk
  have hpix := getPixel_testPattern s.orient s.fb hr
  rw [getPixel, getPixel, hbyte, hbit, checker_of_bit a.val k hk, ← decide_not] at hpix
  rw [hpix]
  split
  · rw [getLsbD_ite_full _ hk]
  · by_cases hx : a.val % 128 ≤ 63
    · rw [if_pos hx, if_pos (by omega), getLsbD_ite_full _ hk, decide_eq_decide]
      omega
    · rw [if_neg hx, if_neg (by omega)]

end Sys2Proof.Machine
end

section
/-! DRAWCH's glyphs: what they cover, the box they stay in, scale 0 (43_rasterizer.md R145 to R149). -/

namespace Sys2Proof.Machine

/-! ### What a glyph covers -/

theorem mem_charReqs {font : FontRom} {x y : Int} {code : Byte} {on : Bool} {scale : Byte} {r : PixelReq} :
    r ∈ charReqs font x y code on scale ↔
      ∃ c : Fin 5, ∃ row < 8, glyphBit font[glyphIndex code] c row = true ∧ ∃ dy < scale.toNat, ∃ dx < scale.toNat,
        r = ⟨x + c.val * scale.toNat + dx, y + row * scale.toNat + dy, on⟩ :=
  mem_glyphReqs

/-- Every request of a character carries the character's value. -/
theorem on_of_mem_charReqs {font : FontRom} {x y : Int} {code : Byte} {on : Bool} {scale : Byte} {r : PixelReq}
    (h : r ∈ charReqs font x y code on scale) : r.on = on := by
  obtain ⟨c, row, -, -, dy, -, dx, -, rfl⟩ := mem_charReqs.mp h
  rfl

/-- A glyph covers a pixel when one of the character's requests lands on it. -/
theorem glyphCovers_iff (s : State) (x y : Int) (code : Byte) (on : Bool) (scale : Byte) (px py : Int) :
    Spec.GlyphCovers s (glyphIndex code) x y scale px py ↔
      ∃ r ∈ charReqs s.font x y code on scale, transform fbcoreParams s.orient r.lx r.ly = (px, py) := by
  constructor
  · rintro ⟨c, row, lx, ly, hrow, hbit, hx, hx', hy, hy', hT⟩
    refine ⟨⟨lx, ly, on⟩, mem_charReqs.mpr ⟨c, row, hrow, hbit, (ly - (y + row * scale.toNat)).toNat, by omega,
      (lx - (x + c.val * scale.toNat)).toNat, by omega, ?_⟩, hT⟩
    rw [PixelReq.mk.injEq]
    exact ⟨by omega, by omega, rfl⟩
  · rintro ⟨r, hr, hT⟩
    obtain ⟨c, row, hrow, hbit, dy, hdy, dx, hdx, rfl⟩ := mem_charReqs.mp hr
    refine ⟨c, row, x + c.val * scale.toNat + dx, y + row * scale.toNat + dy, hrow, hbit, ?_, ?_, ?_, ?_, hT⟩
    all_goals omega

/-- Settles O39: the last request that lands on a covered pixel carries `on`, and none lands on another. -/
theorem drawchPaintsItsGlyph : Obligations.DrawchPaintsItsGlyph := by
  unfold Obligations.DrawchPaintsItsGlyph
  intro x y code on scale s i hi
  obtain rfl : i = glyphIndex code := Fin.ext (hi.trans (glyphIndex_val code).symm)
  refine ⟨_, exec_drawch x y code on scale s, fun px py h => ?_⟩
  rw [getPixel_drawAll _ _ _ _ h, glyphCovers_iff s x y code on]
  refine ⟨fun hcov => ?_, fun hcov => ?_⟩
  · rw [lastHit_eq_some hcov fun r hr _ => on_of_mem_charReqs hr]
    rfl
  · rw [lastHit_eq_none fun r hr he => hcov ⟨r, hr, he⟩]
    rfl

/-! ### The box of a glyph -/

/-- The requests of a character lie in its box of 5s columns and 8s rows (43_rasterizer.md R148). -/
theorem charReqs_in_box {font : FontRom} {x y : Int} {code : Byte} {on : Bool} {scale : Byte} {r : PixelReq}
    (h : r ∈ charReqs font x y code on scale) :
    x ≤ r.lx ∧ r.lx < x + 5 * scale.toNat ∧ y ≤ r.ly ∧ r.ly < y + 8 * scale.toNat := by
  obtain ⟨c, row, hrow, -, dy, hdy, dx, hdx, rfl⟩ := mem_charReqs.mp h
  have hc : c.val * scale.toNat ≤ 4 * scale.toNat := Nat.mul_le_mul_right _ (by omega)
  have hr : row * scale.toNat ≤ 7 * scale.toNat := Nat.mul_le_mul_right _ (by omega)
  have hc' : ((c.val : Int) * scale.toNat) = (c.val * scale.toNat : Nat) := by push_cast; rfl
  have hr' : ((row : Int) * scale.toNat) = (row * scale.toNat : Nat) := by push_cast; rfl
  simp only [hc', hr']
  omega

/-- Settles O42: a request outside the box would be the image of another logical point. -/
theorem glyphStaysInItsBox : Obligations.GlyphStaysInItsBox := by
  unfold Obligations.GlyphStaysInItsBox
  intro x y code on scale s
  refine ⟨_, exec_drawch x y code on scale s, fun lx ly px py h hT hout => ?_⟩
  have hnone : lastHit fbcoreParams s.orient px py (charReqs s.font x y code on scale) = none := by
    refine lastHit_eq_none fun r hr he => ?_
    obtain ⟨rfl, rfl⟩ := transform_inj (he.trans hT.symm)
    have hbox := charReqs_in_box hr
    omega
  rw [State.withFb_fb, getPixel_drawAll _ _ _ _ h, hnone, Option.getD_none]

/-! ### Scale 0 -/

theorem charReqs_scale_zero (font : FontRom) (x y : Int) (code : Byte) (on : Bool) :
    charReqs font x y code on 0 = [] := by
  refine List.eq_nil_iff_forall_not_mem.mpr fun r hr => ?_
  obtain ⟨c, row, -, -, dy, hdy, -⟩ := mem_charReqs.mp hr
  exact absurd hdy (Nat.not_lt_zero dy)

theorem textReqs_scale_zero (p : Params) (font : FontRom) (o : Orientation) (x y : Int) (text : List Byte) (on : Bool) :
    textReqs p font o x y text on 0 = [] := by
  rw [textReqs, List.flatMap_eq_nil_iff]
  exact fun t _ => charReqs_scale_zero font t.cx t.cy t.code on

/-- Settles O41: at scale 0 no character makes a request. -/
theorem scaleZeroPaintsNothing : Obligations.ScaleZeroPaintsNothing := by
  unfold Obligations.ScaleZeroPaintsNothing
  refine ⟨fun x y code on s => ?_, fun x y text on s => ?_⟩
  · rw [exec_drawch, charReqs_scale_zero, drawAll_nil, State.withFb_self]
  · rw [exec_drawtxt, textReqs_scale_zero, drawAll_nil, State.withFb_self]

/-! ### The number of requests -/

theorem testPatternReqs_length : testPatternReqs.length = 8192 := by
  simp only [testPatternReqs, List.length_flatMap, List.length_map, List.length_range, List.map_const',
    List.sum_replicate]
  rfl

theorem blockReqs_length (x y : Int) (on : Bool) (scale : Nat) : (blockReqs x y on scale).length = scale * scale := by
  simp only [blockReqs, List.pure_def, List.bind_eq_flatMap, List.length_flatMap, List.length_map, List.length_cons,
    List.length_nil, zero_add, List.map_const', List.length_range, List.sum_replicate, smul_eq_mul, mul_one]

/-- A `flatMap` makes at most so many elements for each element of its list. -/
theorem length_flatMap_le {α β : Type} (l : List α) (f : α → List β) (n : Nat) (h : ∀ a ∈ l, (f a).length ≤ n) :
    (l.flatMap f).length ≤ l.length * n := by
  rw [List.length_flatMap, ← smul_eq_mul, ← List.length_map (fun a => (f a).length)]
  refine List.sum_le_card_nsmul _ _ fun k hk => ?_
  obtain ⟨a, ha, rfl⟩ := List.mem_map.mp hk
  exact h a ha

theorem glyphReqs_length_le (g : Vector Byte 5) (x y : Int) (on : Bool) (scale : Nat) :
    (glyphReqs g x y on scale).length ≤ 5 * (8 * (scale * scale)) := by
  refine length_flatMap_le (List.finRange 5) _ _ fun c _ => length_flatMap_le (List.range 8) _ _ fun r _ => ?_
  split
  · exact (blockReqs_length _ _ on scale).le
  · exact Nat.zero_le _

theorem textCellsFrom_length_le (lw lh scale col cx cy : Int) (text : List Byte) :
    (textCellsFrom lw lh scale col cx cy text).length ≤ text.length := by
  rw [← List.length_map TextCell.code, textCellsFrom_codes]
  exact List.length_take_le' _ _

/-- Settles O49: a glyph has 40 bits of one block each, and a text draws no character twice. -/
theorem workOfACommandIsBounded : Obligations.WorkOfACommandIsBounded := by
  unfold Obligations.WorkOfACommandIsBounded
  refine ⟨testPatternReqs_length, fun font x y code on scale => ?_, fun p o x y text scale => ?_⟩
  · calc (charReqs font x y code on scale).length
      _ ≤ 5 * (8 * (scale.toNat * scale.toNat)) := glyphReqs_length_le _ _ _ _ _
      _ = 40 * scale.toNat * scale.toNat := by ring
  · unfold textCells
    split
    · exact textCellsFrom_length_le _ _ _ _ _ _ _
    · exact Nat.le_refl _
    · exact Nat.succ_le_succ (textCellsFrom_length_le _ _ _ _ _ _ _)

end Sys2Proof.Machine
end

section
/-! DRAWTXT's layout: its loop, the grid of characters from the origin, the spec's other readings (43_rasterizer.md R150
to R155). -/

namespace Sys2Proof.Machine

/-! ### The wrap test -/

/-- The cursor's x after the wrap test (43_rasterizer.md R150). -/
def wrappedX (lw scale col cx : Int) : Int := if cx > lw - 6 * scale then col else cx

/-- The cursor's y after the wrap test (43_rasterizer.md R150). -/
def wrappedY (lw scale cx cy : Int) : Int := if cx > lw - 6 * scale then cy + 8 * scale else cy

section Wrap

variable {lw scale cx : Int}

theorem wrappedX_of_fits (h : cx ≤ lw - 6 * scale) (col : Int) : wrappedX lw scale col cx = cx := if_neg (not_lt.mpr h)

theorem wrappedY_of_fits (h : cx ≤ lw - 6 * scale) (cy : Int) : wrappedY lw scale cx cy = cy := if_neg (not_lt.mpr h)

theorem wrappedX_of_wraps (h : cx > lw - 6 * scale) (col : Int) : wrappedX lw scale col cx = col := if_pos h

theorem wrappedY_of_wraps (h : cx > lw - 6 * scale) (cy : Int) : wrappedY lw scale cx cy = cy + 8 * scale := if_pos h

end Wrap

/-- One character of the layout: the wrap test, the stop test, the draw, the advance (43_rasterizer.md R150). -/
theorem textCellsFrom_cons (lw lh scale col cx cy : Int) (code : Byte) (rest : List Byte) :
    textCellsFrom lw lh scale col cx cy (code :: rest) =
      if wrappedY lw scale cx cy > lh - 8 * scale then []
      else ⟨wrappedX lw scale col cx, wrappedY lw scale cx cy, code⟩ ::
        textCellsFrom lw lh scale col (wrappedX lw scale col cx + 6 * scale) (wrappedY lw scale cx cy) rest := rfl

/-! ### The loop of the pseudocode -/

section Loop

variable (lw lh x : Int) (on : Bool) (scale : Byte)

/-- Once stopped, the loop does nothing more. -/
theorem foldl_body_of_stopped {v : Spec.TextLoop} (h : v.stopped = true) (text : List Byte) :
    text.foldl (Spec.TextLoop.body lw lh x on scale) v = v := by
  induction text with
  | nil => rfl
  | cons code rest ih => rw [List.foldl_cons, Spec.TextLoop.body, if_pos h, ih]

/-- A pass that stops keeps the machine. -/
theorem body_of_stop {cx cy : Int} (s : State) (code : Byte)
    (h : wrappedY lw scale.toNat cx cy > lh - 8 * scale.toNat) :
    Spec.TextLoop.body lw lh x on scale ⟨cx, cy, false, s⟩ code =
      ⟨wrappedX lw scale.toNat x cx, wrappedY lw scale.toNat cx cy, true, s⟩ := by
  simp only [Spec.TextLoop.body, Bool.false_eq_true, if_false, decide_eq_true_eq]
  exact if_pos h

/-- A pass that does not stop runs one DRAWCH and advances. -/
theorem body_of_draw {cx cy : Int} (s : State) (code : Byte)
    (h : ¬ wrappedY lw scale.toNat cx cy > lh - 8 * scale.toNat) :
    Spec.TextLoop.body lw lh x on scale ⟨cx, cy, false, s⟩ code =
      ⟨wrappedX lw scale.toNat x cx + 6 * scale.toNat, wrappedY lw scale.toNat cx cy, false,
        s.withFb (drawAll fbcoreParams s.orient s.fb
          (charReqs s.font (wrappedX lw scale.toNat x cx) (wrappedY lw scale.toNat cx cy) code on scale))⟩ := by
  simp only [Spec.TextLoop.body, Bool.false_eq_true, if_false, decide_eq_true_eq, exec_drawch]
  exact if_neg h

/-- The loop's machine after a string: the requests of the characters laid out from the cursor, served in order. -/
theorem foldl_body_machine (text : List Byte) (cx cy : Int) (s : State) :
    (text.foldl (Spec.TextLoop.body lw lh x on scale) ⟨cx, cy, false, s⟩).machine =
      s.withFb (drawAll fbcoreParams s.orient s.fb
        ((textCellsFrom lw lh scale.toNat x cx cy text).flatMap fun t =>
          charReqs s.font t.cx t.cy t.code on scale)) := by
  induction text generalizing cx cy s with
  | nil => rw [List.foldl_nil, textCellsFrom_nil, List.flatMap_nil, drawAll_nil, State.withFb_self]
  | cons code rest ih =>
    rw [List.foldl_cons, textCellsFrom_cons]
    by_cases h : wrappedY lw scale.toNat cx cy > lh - 8 * scale.toNat
    · rw [body_of_stop lw lh x on scale s code h, foldl_body_of_stopped lw lh x on scale rfl, if_pos h,
        List.flatMap_nil, drawAll_nil, State.withFb_self]
    · rw [body_of_draw lw lh x on scale s code h, ih, if_neg h, List.flatMap_cons, drawAll_append, State.withFb_orient,
        State.withFb_fb, State.withFb_font, State.withFb_withFb]

end Loop

/-- The logical extents in the two groups of orientations (41_transform.md R115). -/
theorem logical_extents {o : Orientation} {lw lh : Int} (hland : o = .normal ∨ o = .rot180 → lw = 128 ∧ lh = 64)
    (hport : o = .rot90 ∨ o = .rot270 → lw = 64 ∧ lh = 128) : lw = logicalWidth o ∧ lh = logicalHeight o := by
  cases o with
  | normal => exact hland (.inl rfl)
  | rot180 => exact hland (.inr rfl)
  | rot90 => exact hport (.inl rfl)
  | rot270 => exact hport (.inr rfl)

/-- Settles O43: by induction on the string, the loop serves the requests of `textCells`. -/
theorem drawtxtRunsItsPseudocode : Obligations.DrawtxtRunsItsPseudocode := by
  unfold Obligations.DrawtxtRunsItsPseudocode
  intro x y text on scale s lw lh hland hport
  obtain ⟨rfl, rfl⟩ := logical_extents hland hport
  rw [exec_drawtxt, foldl_body_machine, textReqs, textCells_fbcoreParams]

/-! ### The other readings -/

/-- Where the cursor passes both tests, the next character is drawn at it. -/
theorem textCellsFrom_cons_of_fits {lw lh scale cx cy : Int} (hx : cx ≤ lw - 6 * scale) (hy : cy ≤ lh - 8 * scale)
    (col : Int) (code : Byte) (rest : List Byte) :
    textCellsFrom lw lh scale col cx cy (code :: rest) =
      ⟨cx, cy, code⟩ :: textCellsFrom lw lh scale col (cx + 6 * scale) cy rest := by
  rw [textCellsFrom_cons, wrappedX_of_fits hx, wrappedY_of_fits hx, if_neg (not_lt.mpr hy)]

theorem wrapColumn_eq_x {p : Params} {x : Int} (h : p.textWrapColumn = .origin ∨ x = 0) : wrapColumn p x = x := by
  rw [wrapColumn]
  cases hcol : p.textWrapColumn with
  | origin => rfl
  | zero =>
    have hx : x = 0 := h.resolve_left (by rw [hcol]; exact TextWrapColumn.noConfusion)
    exact hx.symm

section CheckOrder

variable {p : Params} {o : Orientation} {x y : Int} {scale : Byte}

theorem textCells_nil (p : Params) : textCells p o x y [] scale = [] := by
  cases horder : p.textCheckOrder with
  | before => simp only [textCells, horder, textCellsFrom_nil]
  | after => simp only [textCells, horder]

theorem textCells_of_before (h : p.textCheckOrder = .before) (text : List Byte) :
    textCells p o x y text scale =
      textCellsFrom (logicalWidth o) (logicalHeight o) scale.toNat (wrapColumn p x) x y text := by
  simp only [textCells, h]

/-- With the tests after the draw the first character is drawn untested (43_rasterizer.md R153). -/
theorem textCells_cons_of_after (h : p.textCheckOrder = .after) (code : Byte) (rest : List Byte) :
    textCells p o x y (code :: rest) scale = ⟨x, y, code⟩ ::
      textCellsFrom (logicalWidth o) (logicalHeight o) scale.toNat (wrapColumn p x) (x + 6 * scale.toNat) y rest := by
  simp only [textCells, h]

end CheckOrder

/-- Settles O46: the wrap column is x, and the tests the other order leaves out are passed by the start. -/
theorem textReadingsAgreeWhereTheStartFits : Obligations.TextReadingsAgreeWhereTheStartFits := by
  unfold Obligations.TextReadingsAgreeWhereTheStartFits
  intro p o x y text scale hx hy hcol
  have hwrap := wrapColumn_eq_x hcol
  cases horder : p.textCheckOrder with
  | before => rw [textCells_of_before horder, hwrap, textCells_fbcoreParams]
  | after =>
    cases text with
    | nil => rw [textCells_nil, textCells_nil]
    | cons code rest =>
      rw [textCells_cons_of_after horder, hwrap, textCells_fbcoreParams, textCellsFrom_cons_of_fits hx hy]

/-! ### The grid from the origin -/

/-- Character `k` of a text laid out `perLine` to a line from the origin (43_rasterizer.md R155). -/
def gridCell (scale : Int) (perLine k : Nat) (code : Byte) : TextCell :=
  ⟨6 * scale * (k % perLine : Nat), 8 * scale * (k / perLine : Nat), code⟩

/-- A cell of a row of `n` whole cells is too far when its index is `n` or more. -/
theorem past_iff {w size : Int} {n : Nat} (hsize : 0 < size) (hn : (n : Int) = w / size) (j : Nat) :
    size * j > w - size ↔ n ≤ j := by
  have hdiv : w / size < (j : Int) + 1 ↔ w < ((j : Int) + 1) * size := Int.ediv_lt_iff_lt_mul hsize
  rw [← hn, add_mul, one_mul, mul_comm (j : Int)] at hdiv
  omega

section Grid

variable {lw lh scale : Int} {perLine lines : Nat}

/-- The wrap test turns the end of a line into the beginning of the next. -/
theorem wrapped_grid (hx : ∀ j : Nat, 6 * scale * j > lw - 6 * scale ↔ perLine ≤ j) (hpos : 0 < perLine)
    {k j l : Nat} (hk : k = l * perLine + j) (hj : j ≤ perLine) :
    wrappedX lw scale 0 (6 * scale * j) = 6 * scale * (k % perLine : Nat) ∧
      wrappedY lw scale (6 * scale * j) (8 * scale * l) = 8 * scale * (k / perLine : Nat) := by
  by_cases hend : perLine ≤ j
  · obtain rfl : j = perLine := by omega
    have hk' : k = (l + 1) * j := by rw [hk, add_mul, one_mul]
    have hwraps := (hx j).mpr (Nat.le_refl j)
    rw [wrappedX_of_wraps hwraps, wrappedY_of_wraps hwraps, hk', Nat.mul_mod_left, Nat.mul_div_cancel _ hpos]
    push_cast
    exact ⟨(mul_zero _).symm, by ring⟩
  · have hlt : j < perLine := by omega
    have hfits : 6 * scale * (j : Int) ≤ lw - 6 * scale := not_lt.mp (mt (hx j).mp hend)
    have hmod : k % perLine = j := by
      rw [hk, Nat.mul_add_mod_self_right, Nat.mod_eq_of_lt hlt]
    have hdiv : k / perLine = l := by
      rw [hk, Nat.add_comm, Nat.add_mul_div_right _ _ hpos, Nat.div_eq_of_lt hlt, Nat.zero_add]
    rw [wrappedX_of_fits hfits, wrappedY_of_fits hfits, hmod, hdiv]
    exact ⟨rfl, rfl⟩

/-- From the cursor before character `k` on, the text fills the grid until the lines are used up. -/
theorem textCellsFrom_grid (hx : ∀ j : Nat, 6 * scale * j > lw - 6 * scale ↔ perLine ≤ j)
    (hy : ∀ l : Nat, 8 * scale * l > lh - 8 * scale ↔ lines ≤ l) (hpos : 0 < perLine) (text : List Byte) {k j l : Nat}
    (hk : k = l * perLine + j) (hj : j ≤ perLine) :
    textCellsFrom lw lh scale 0 (6 * scale * j) (8 * scale * l) text =
      (text.take (lines * perLine - k)).mapIdx fun i code => gridCell scale perLine (k + i) code := by
  induction text generalizing k j l with
  | nil => rw [textCellsFrom_nil, List.take_nil, List.mapIdx_nil]
  | cons code rest ih =>
    obtain ⟨hcx, hcy⟩ := wrapped_grid hx hpos hk hj
    have hstop : lines ≤ k / perLine ↔ lines * perLine ≤ k := Nat.le_div_iff_mul_le hpos
    rw [textCellsFrom_cons, hcx, hcy]
    by_cases hfull : lines ≤ k / perLine
    · rw [if_pos ((hy _).mpr hfull), Nat.sub_eq_zero_of_le (hstop.mp hfull), List.take_zero, List.mapIdx_nil]
    · have hroom : lines * perLine - k = lines * perLine - (k + 1) + 1 := by omega
      have hnext : k + 1 = k / perLine * perLine + (k % perLine + 1) := by
        rw [← Nat.add_assoc, Nat.div_add_mod']
      have hadvance : 6 * scale * (k % perLine : Nat) + 6 * scale = 6 * scale * (k % perLine + 1 : Nat) := by
        push_cast
        ring
      rw [if_neg (mt (hy _).mp hfull), hadvance, ih hnext (Nat.mod_lt _ hpos), hroom, List.take_succ_cons,
        List.mapIdx_cons]
      simp only [Nat.add_assoc, Nat.add_comm 1, Nat.add_zero]
      rfl

end Grid

/-- Where no character fits a line, there is at most one line. -/
theorem lines_le_one {o : Orientation} {scale : Int} {lines : Nat} (hpos : 0 < scale)
    (hx : logicalWidth o < 6 * scale) (hlines : (lines : Int) = logicalHeight o / (8 * scale)) : lines ≤ 1 := by
  have hlt : logicalHeight o < 2 * (8 * scale) := by
    cases o with
    | normal | rot180 => simp only [logicalWidth, logicalHeight] at hx ⊢; omega
    | rot90 | rot270 => simp only [logicalWidth, logicalHeight] at hx ⊢; omega
  have hdiv : logicalHeight o / (8 * scale) < 2 := (Int.ediv_lt_iff_lt_mul (by omega)).mpr hlt
  omega

/-- The text drawn from the origin fills a grid of `lines` lines of `perLine` characters (43_rasterizer.md R155). -/
theorem textCells_origin {o : Orientation} {scale : Byte} {perLine lines : Nat} (hscale : scale ≠ 0)
    (hperLine : (perLine : Int) = logicalWidth o / (6 * scale.toNat))
    (hlines : (lines : Int) = logicalHeight o / (8 * scale.toNat)) (text : List Byte) :
    textCells fbcoreParams o 0 0 text scale =
      (text.take (lines * perLine)).mapIdx fun i code => gridCell scale.toNat perLine i code := by
  have hne : scale.toNat ≠ 0 := fun h => hscale (BitVec.eq_of_toNat_eq h)
  have hx := past_iff (size := 6 * scale.toNat) (by omega) hperLine
  have hy := past_iff (size := 8 * scale.toNat) (by omega) hlines
  rw [textCells_fbcoreParams]
  rcases Nat.eq_zero_or_pos perLine with rfl | hpos
  · have hwraps : (0 : Int) > logicalWidth o - 6 * scale.toNat := by simpa using (hx 0).mpr (Nat.le_refl 0)
    have hstop : 8 * (scale.toNat : Int) > logicalHeight o - 8 * scale.toNat := by
      simpa using (hy 1).mpr (lines_le_one (by omega) (by omega) hlines)
    cases text with
    | nil => rw [textCellsFrom_nil, List.take_nil, List.mapIdx_nil]
    | cons code rest =>
      rw [textCellsFrom_cons, wrappedY_of_wraps hwraps, zero_add, if_pos hstop, Nat.mul_zero, List.take_zero,
        List.mapIdx_nil]
  · simpa using textCellsFrom_grid hx hy hpos text (k := 0) (j := 0) (l := 0) (by omega) (Nat.zero_le _)

/-- Settles O44: the number, the codes and the cursors of the cells of the grid. -/
theorem textCapacityFromTheOrigin : Obligations.TextCapacityFromTheOrigin := by
  unfold Obligations.TextCapacityFromTheOrigin
  intro o text scale perLine lines n hscale hperLine hlines hn
  have hgrid := textCells_origin hscale hperLine hlines text
  have hlen : (textCells fbcoreParams o 0 0 text scale).length = n := by
    rw [hgrid, List.length_mapIdx, List.length_take, hn, Nat.min_comm, Nat.mul_comm]
  refine ⟨hlen, ?_, fun k hk => ?_⟩
  · rw [← hlen]
    exact textCellsFrom_codes _ _ _ _ 0 0 text
  · have htext : k < (text.take (lines * perLine)).length := by
      rwa [List.length_take, Nat.min_comm, Nat.mul_comm, ← hn]
    rw [hgrid, List.getElem?_mapIdx, List.getElem?_eq_getElem htext]
    rfl

end Sys2Proof.Machine
end

section
/-! The range of the coordinates: seventeen bits suffice (20_memory.md R52). -/

namespace Sys2Proof.Machine

theorem coordOk_iff {v : Int} : coordOk v = true ↔ -32768 ≤ v ∧ v ≤ 32767 := by
  rw [coordOk, Bool.and_eq_true, decide_eq_true_eq, decide_eq_true_eq]

theorem scale_le (scale : Byte) : scale.toNat ≤ 255 := Nat.le_of_lt_succ scale.isLt

theorem logical_le (o : Orientation) :
    64 ≤ logicalWidth o ∧ logicalWidth o ≤ 128 ∧ 64 ≤ logicalHeight o ∧ logicalHeight o ≤ 128 := by
  cases o <;> decide

/-- A request fits when its logical point lies between the lowest operand and the highest row of a glyph. -/
theorem requestFits_of_bounds (o : Orientation) {lx ly : Int} {on : Bool} (hx : -32768 ≤ lx ∧ lx ≤ 34806)
    (hy : -32768 ≤ ly ∧ ly ≤ 34806) : Spec.RequestFits o ⟨lx, ly, on⟩ := by
  have himage : Spec.Fits (transform fbcoreParams o lx ly).1 ∧ Spec.Fits (transform fbcoreParams o lx ly).2 := by
    simp only [Spec.Fits]
    cases o with
    | normal => rw [transform_normal]; omega
    | rot90 => rw [transform_rot90]; omega
    | rot180 => rw [transform_rot180]; omega
    | rot270 => rw [transform_rot270]; omega
  have hlx : Spec.Fits lx := ⟨by omega, by omega⟩
  have hly : Spec.Fits ly := ⟨by omega, by omega⟩
  exact ⟨hlx, hly, himage.1, himage.2⟩

theorem charReqs_fit (o : Orientation) {font : FontRom} {x y : Int} {code : Byte} {on : Bool} {scale : Byte}
    {r : PixelReq} (hx : coordOk x = true) (hy : coordOk y = true) (h : r ∈ charReqs font x y code on scale) :
    Spec.RequestFits o r := by
  rw [coordOk_iff] at hx hy
  have hs := scale_le scale
  have hbox := charReqs_in_box h
  exact requestFits_of_bounds o (by omega) (by omega)

theorem testPatternReqs_fit (o : Orientation) {r : PixelReq} (h : r ∈ testPatternReqs) : Spec.RequestFits o r := by
  obtain ⟨lx, ly, on⟩ := r
  obtain ⟨hin, -⟩ := mem_testPatternReqs_mk.mp h
  exact requestFits_of_bounds o (by omega) (by omega)

/-- A character is drawn at the wrap column or where it fits the line, on a line that fits, never before the start. -/
theorem textCellsFrom_bounds {lw lh scale x y cx cy : Int} (hs : 0 ≤ scale) (hx : x ≤ cx) (hy : y ≤ cy)
    {text : List Byte} {t : TextCell} (h : t ∈ textCellsFrom lw lh scale x cx cy text) :
    (x ≤ t.cx ∧ (t.cx = x ∨ t.cx ≤ lw - 6 * scale)) ∧ y ≤ t.cy ∧ t.cy ≤ lh - 8 * scale := by
  induction text generalizing cx cy with
  | nil => cases h
  | cons code rest ih =>
    have hX : x ≤ wrappedX lw scale x cx ∧ (wrappedX lw scale x cx = x ∨ wrappedX lw scale x cx ≤ lw - 6 * scale) := by
      unfold wrappedX
      split <;> omega
    have hY : y ≤ wrappedY lw scale cx cy := by
      unfold wrappedY
      split <;> omega
    rw [textCellsFrom_cons] at h
    by_cases hstop : wrappedY lw scale cx cy > lh - 8 * scale
    · rw [if_pos hstop] at h
      cases h
    · rw [if_neg hstop, List.mem_cons] at h
      rcases h with rfl | h
      · exact ⟨hX, hY, not_lt.mp hstop⟩
      · exact ih (by omega) hY h

section TextCells

variable {o : Orientation} {x y : Int} {text : List Byte} {scale : Byte} {t : TextCell}

theorem textCells_bounds (h : t ∈ textCells fbcoreParams o x y text scale) :
    (x ≤ t.cx ∧ (t.cx = x ∨ t.cx ≤ logicalWidth o - 6 * scale.toNat)) ∧
      y ≤ t.cy ∧ t.cy ≤ logicalHeight o - 8 * scale.toNat :=
  textCellsFrom_bounds (Int.natCast_nonneg _) (le_refl x) (le_refl y) h

/-- A drawn character's cursor is in the range of an operand. -/
theorem textCells_coordOk (hx : coordOk x = true) (hy : coordOk y = true)
    (h : t ∈ textCells fbcoreParams o x y text scale) : coordOk t.cx = true ∧ coordOk t.cy = true := by
  have hl := logical_le o
  have hx' := coordOk_iff.mp hx
  have hy' := coordOk_iff.mp hy
  have ht := textCells_bounds h
  exact ⟨coordOk_iff.mpr (by omega), coordOk_iff.mpr (by omega)⟩

theorem textCells_cursorFits (hx : coordOk x = true) (hy : coordOk y = true)
    (h : t ∈ textCells fbcoreParams o x y text scale) : Spec.CursorFits scale t := by
  have hl := logical_le o
  have hs := scale_le scale
  have ht := textCells_bounds h
  rw [coordOk_iff] at hx hy
  constructor
  all_goals
    rw [Spec.Fits]
    omega

end TextCells

/-- Settles O50: a glyph's box, a text's cursors and the limits in numbers; the largest operands reach the top. -/
theorem seventeenBitsSuffice : Obligations.SeventeenBitsSuffice := by
  unfold Obligations.SeventeenBitsSuffice
  refine ⟨fun o x y hx hy => ⟨fun on => ?_, fun font code on scale r hr => charReqs_fit o hx hy hr,
    fun font text on scale r hr => ?_, fun r hr => testPatternReqs_fit o hr, fun scale => ?_⟩, 32767, 255, by decide,
    by decide⟩
  · rw [coordOk_iff] at hx hy
    exact requestFits_of_bounds o (by omega) (by omega)
  · obtain ⟨t, ht, hr⟩ := List.mem_flatMap.mp hr
    obtain ⟨hcx, hcy⟩ := textCells_coordOk hx hy ht
    exact charReqs_fit o hcx hcy hr
  · have hl := logical_le o
    have hs := scale_le scale
    have hx' := coordOk_iff.mp hx
    have hy' := coordOk_iff.mp hy
    refine ⟨?_, ?_, ?_, ?_, fun text t ht => textCells_cursorFits hx hy ht⟩
    all_goals
      rw [Spec.Fits]
      omega

end Sys2Proof.Machine
end
